-- ==== Sys2Proof/Word.lean ====
section
/-! DEFINITION. The bit sequences and bit matrices of the Hamming (10,6) coder core (rules R5, R8 and R33).

A sequence of `m` bits is a `BitVec m`: element `i` of the sequence is bit `i`, and bit 0 is the least significant bit
(rule R33), so the number a `BitVec` stands for is `lane(s)` of rule R8. A matrix with `a` rows and `b` columns is a
vector of `a` row registers of `b` bits each; bit `i` of row `j` is column `i` (rules R13 and R14). -/

namespace Sys2Proof

/-- A bit matrix with `a` rows of `b` bits (rule R8). -/
abbrev BMat (a b : Nat) := Vector (BitVec b) a

/-- `M[j][i]`: the bit in row `j`, column `i` (rule R8). -/
abbrev BMat.bit {a b : Nat} (M : BMat a b) (j : Fin a) (i : Fin b) : Bool := M[j][i]

/-- The input word `IN` (rule R41). -/
abbrev InWord := BitVec 22

/-- The output word `OUT` (rule R45). -/
abbrev OutWord := BitVec 18

/-- One entry of the operation list `OPS` (rule R48). -/
abbrev OpEntry := BitVec 6

/-- A row index field of an operation-list entry: 0 to 7, of which 0 to 5 name a row (rule R48). -/
abbrev RowIndex := BitVec 3

/-- The shape of the seed matrix, of the working matrix and of the generator matrix `G` (rules R11 and R13). -/
abbrev GenMatrix := BMat 6 10

/-- The shape of the parity-check matrix `H` (rule R14). -/
abbrev CheckMatrix := BMat 4 10

/-- A source word, and a decode payload: 6 bits (rule R9). -/
abbrev SourceWord := BitVec 6

/-- The first ten bits of an encoded or received word (rule R9). -/
abbrev Body := BitVec 10

/-- An encoded or received word: 11 bits (rule R9). -/
abbrev CodedWord := BitVec 11

/-- A syndrome: 4 bits (rule R96). -/
abbrev Syndrome := BitVec 4

end Sys2Proof
end

