-- ==== Sys2Proof/Machine/Operands.lean ====
section
/-! DEFINITION. Operand assembly (rules R43 and R44). -/

namespace Sys2Proof.Machine

/-- The operand of a call: a bit sequence of length `len`, element `i` at bit `i` of `bits`; the bits at or above `len` are
zero, so that equal sequences are equal data (log entry 12). -/
structure Operand where
  len : Nat
  bits : BitVec 15
deriving DecidableEq, Repr

/-- `seq = (data[0], …, data[len-1])` (rule R43); lanes at or above `len` are ignored (rule R44). -/
def operand (len : BitVec 4) (data : BitVec 15) : Operand where
  len := len.toNat
  bits := (data.setWidth len.toNat).setWidth 15

/-- The source word of an operand of length 6: `s[j] = seq[j]` (rule R86). -/
def Operand.sourceWord (seq : Operand) : SourceWord := seq.bits.setWidth 6

/-- The received word of an operand of length 11: `rw[j] = seq[j]` (rule R103). -/
def Operand.receivedWord (seq : Operand) : CodedWord := seq.bits.setWidth 11

end Sys2Proof.Machine
end

