-- ==== Sys2Proof/Config.lean ====
section
/-! DEFINITION. The open parameter `cfg` (rule R6): the two constant stores SEED and OPS, whose values the spec does not
give (rules R11 and R12, open points U1, U4 and U5). -/

namespace Sys2Proof

/-- `cfg`: the seed matrix and the operation list (rules R6, R11, R12). `NOPS` is the length of `ops`. -/
structure Config where
  /-- `SEED`: six rows of ten bits (rule R11). -/
  seed : GenMatrix
  /-- `OPS`: the entries in index order (rule R12). -/
  ops : List OpEntry
deriving DecidableEq, Repr

/-- `cfg.SEED` of the block as built. DESIGN CHOICE: an opaque constant, since the spec gives no value (rule R6, log entry 1). -/
opaque Config.builtSeed : GenMatrix

/-- `cfg.OPS` of the block as built. DESIGN CHOICE: an opaque constant, since the spec gives no value (rule R6, log entry 1). -/
opaque Config.builtOps : List OpEntry

/-- The constants of the block as built. -/
def Config.built : Config := { seed := Config.builtSeed, ops := Config.builtOps }

end Sys2Proof
end

