-- ==== Sys2Proof/Syntax.lean ====
section
/-! DEFINITION. The operations of the coder core: one constructor per row of spec/opcode_table.json (rule R49). -/

namespace Sys2Proof

/-- The five encoded operations (rule R49). The ignored bits of CONSTRUCT and IDLE are no operands (rules R41 and R50). -/
inductive Instr where
  /-- CONSTRUCT: reset (rule R78). -/
  | construct
  /-- IDLE: no command presented (rule R112). -/
  | idle
  /-- ENCODE with the operand length field and the fifteen data lanes (rule R86). -/
  | encode (len : BitVec 4) (data : BitVec 15)
  /-- DECODE with the operand length field and the fifteen data lanes (rule R103). -/
  | decode (len : BitVec 4) (data : BitVec 15)
  /-- ROWXOR: one entry of the operation list (rule R70). -/
  | rowxor (src tgt : RowIndex)
deriving DecidableEq, Repr

/-- A code word in one of the two formats of rule R49. -/
inductive CodeWord where
  /-- Format CMD: an input word (rule R41). -/
  | cmd (w : InWord)
  /-- Format OPROM: an operation-list entry (rule R48). -/
  | oprom (e : OpEntry)
deriving DecidableEq, Repr

end Sys2Proof
end

