-- ==== Sys2Proof/WellFormed.lean ====
section
/-! DEFINITION. Which terms of `Instr` are instructions: the row indices of ROWXOR name rows 0 to 5 (rules R48, R50, R70).
Every length and data field of ENCODE and DECODE is well formed: a wrong length is an error response, no illegal
encoding (rule R50). -/

namespace Sys2Proof

/-- The index names a row of the 6 × 10 working matrix (rules R48 and R70: `0 ≤ src ≤ 5`, `0 ≤ tgt ≤ 5`). -/
def RowIndex.inRange (r : RowIndex) : Bool := r.toNat ≤ 5

/-- Well-formed instructions. -/
def Instr.wellFormed : Instr → Bool
  | .construct => true
  | .idle => true
  | .encode _ _ => true
  | .decode _ _ => true
  | .rowxor src tgt => RowIndex.inRange src && RowIndex.inRange tgt

end Sys2Proof
end

