-- ==== Sys2Proof/Decode.lean ====
section
/-! DEFINITION. The decoder and the encoder (rules R41, R43, R48, R49, R50). -/

namespace Sys2Proof

/-- Why a number is no instruction. -/
inductive DecodeReject where
  /-- An operation-list entry whose `src` or `tgt` is 6 or 7: reserved (rules R48 and R50). -/
  | reservedRowIndex
  /-- A number with a bit above the width of the format: no word of that format (rule R50: every word of a format has the
  one length of that format). -/
  | wordTooWide
deriving DecidableEq, Repr

/-- `IN[21]` (rule R41). -/
def InWord.rst (w : InWord) : Bool := w[21]

/-- `IN[20]` (rule R41). -/
def InWord.valid (w : InWord) : Bool := w[20]

/-- `IN[19]` (rule R41). -/
def InWord.op (w : InWord) : Bool := w[19]

/-- `IN[18:15]` (rule R41). -/
def InWord.len (w : InWord) : BitVec 4 := w.extractLsb' 15 4

/-- `IN[14:0]` (rule R41). -/
def InWord.data (w : InWord) : BitVec 15 := w.extractLsb' 0 15

/-- `E[5:3]` (rule R48). -/
def OpEntry.src (e : OpEntry) : RowIndex := e.extractLsb' 3 3

/-- `E[2:0]` (rule R48). -/
def OpEntry.tgt (e : OpEntry) : RowIndex := e.extractLsb' 0 3

/-- The decode of an input word, total over all 2^22 values, in the priority of rule R41. -/
def decodeCmd (w : InWord) : Instr :=
  if InWord.rst w then .construct
  else if !InWord.valid w then .idle
  else if !InWord.op w then .encode (InWord.len w) (InWord.data w)
  else .decode (InWord.len w) (InWord.data w)

/-- The decode of an operation-list entry (rule R48); the 28 reserved entries are rejected by name (rule R50). -/
def decodeOp (e : OpEntry) : Except DecodeReject Instr :=
  if RowIndex.inRange (OpEntry.src e) && RowIndex.inRange (OpEntry.tgt e) then
    .ok (.rowxor (OpEntry.src e) (OpEntry.tgt e))
  else .error .reservedRowIndex

/-- The decode of a code word of either format (rule R49). -/
def decode : CodeWord → Except DecodeReject Instr
  | .cmd w => .ok (decodeCmd w)
  | .oprom e => decodeOp e

/-- An input word from its five fields (rule R41). -/
def cmdWord (rst valid op : Bool) (len : BitVec 4) (data : BitVec 15) : InWord :=
  BitVec.ofBool rst ++ BitVec.ofBool valid ++ BitVec.ofBool op ++ len ++ data

/-- The encoder (rules R41, R48, R51); ignored fields are written as zero, as rule R51 writes them. -/
def encode : Instr → CodeWord
  | .construct => .cmd (cmdWord true false false 0#4 0#15)
  | .idle => .cmd (cmdWord false false false 0#4 0#15)
  | .encode len data => .cmd (cmdWord false true false len data)
  | .decode len data => .cmd (cmdWord false true true len data)
  | .rowxor src tgt => .oprom (src ++ tgt)

/-- The decode of a number that carries a code word: at most 8 bits stand for an OPROM entry (6 bits) and more for a CMD
word (22 bits); a number with a bit above its format's width is rejected (log entry 9). -/
def decodeNumber (nbits w : Nat) : Except DecodeReject Instr :=
  if nbits ≤ 8 then
    if w < 2 ^ 6 then decode (.oprom (BitVec.ofNat 6 w)) else .error .wordTooWide
  else
    if w < 2 ^ 22 then decode (.cmd (BitVec.ofNat 22 w)) else .error .wordTooWide

/-- The instruction the decoder reads from a word numbered as spec/opcode_table.json numbers it. -/
def decodeTableWord (nbits w : Nat) : Option Instr :=
  match decodeNumber nbits w with
  | .ok i => some i
  | .error _ => none

/-- One row of the opcode map of rule R49. -/
inductive OpRow where
  | construct | idle | encode | decode
deriving DecidableEq, Repr

/-- The mask of a CMD row (rule R49). -/
def OpRow.mask : OpRow → InWord
  | .construct => 0x200000#22
  | .idle => 0x300000#22
  | .encode => 0x380000#22
  | .decode => 0x380000#22

/-- The match value of a CMD row (rule R49). -/
def OpRow.value : OpRow → InWord
  | .construct => 0x200000#22
  | .idle => 0x000000#22
  | .encode => 0x100000#22
  | .decode => 0x180000#22

/-- `w` selects the row: `(w & mask) = match` (rule R49). -/
def OpRow.selects (r : OpRow) (w : InWord) : Bool := w &&& r.mask = r.value

/-- The CMD row of an instruction; ROWXOR is the one row of the other format. -/
def Instr.row : Instr → Option OpRow
  | .construct => some .construct
  | .idle => some .idle
  | .encode _ _ => some .encode
  | .decode _ _ => some .decode
  | .rowxor _ _ => none

end Sys2Proof
end

