-- ==== Sys2Proof/Machine/Gf2.lean ====
section
/-! DEFINITION. The GF(2) matrix multiplier (rules R60 to R64): XOR is the sum and AND the product of two bits. -/

namespace Sys2Proof.Machine

/-- The XOR of `f 0`, …, `f (m-1)` (rule R60: the sum mod 2 of the terms). -/
def xorUpTo (f : Nat → Bool) : Nat → Bool
  | 0 => false
  | m + 1 => xorUpTo f m ^^ f m

/-- `XORRED(v)` (rule R61). -/
def xorRed {m : Nat} (v : BitVec m) : Bool := xorUpTo v.getLsbD m

/-- `DOT(u, v)` (rule R62). -/
def dot {m : Nat} (u v : BitVec m) : Bool := xorRed (u &&& v)

/-- `col(M, i)`: `col(M, i)[t] = M[t][i]` (rule R8). -/
def col {a b : Nat} (M : BMat a b) (i : Fin b) : BitVec a := BitVec.ofFnLE fun t => M.bit t i

/-- `VMUL(s, M)`: `c[i] = DOT(s, col(M, i))` (rule R63). -/
def vmul {a b : Nat} (s : BitVec a) (M : BMat a b) : BitVec b := BitVec.ofFnLE fun i => dot s (col M i)

/-- `MVMUL(M, b)`: `y[t] = DOT(M[t], b)` (rule R64). -/
def mvmul {a m : Nat} (M : BMat a m) (b : BitVec m) : BitVec a := BitVec.ofFnLE fun t => dot M[t] b

end Sys2Proof.Machine
end

