-- ==== Sys2Proof/Machine/Coder.lean ====
section
/-! DEFINITION. The matrices of the coder and how they are made, as functions of matrices and constants alone: ROWXOR,
CONVERT, SYSCHK, PCDERIVE, the predicates WF_SYS and WF_COL, and the coder that a construction gives (rules R70 to R81). -/

namespace Sys2Proof.Machine

/-- The pair `(phase, G, H)` of rule R10 once the block has been reset; in FAULT the registers hold no value (rule R17). -/
inductive Coder where
  /-- `phase = READY` with the two matrix registers (rules R13, R14, R16). -/
  | ready (G : GenMatrix) (H : CheckMatrix)
  /-- `phase = FAULT` (rules R16 and R17). -/
  | fault
deriving DecidableEq, Repr

/-- `phase` as a bit: 1 is FAULT (rule R16). -/
def Coder.phase : Coder → Bool
  | .ready _ _ => false
  | .fault => true

/-- `ROWXOR`: `M[tgt] <- M[tgt] ^ M[src]` (rule R70). An index above 5 names no row: no matrix results (rule R72). -/
def rowXor (M : GenMatrix) (src tgt : RowIndex) : Option GenMatrix :=
  if h : src.toNat < 6 ∧ tgt.toNat < 6 then
    some (M.set tgt.toNat (M[tgt.toNat]'h.2 ^^^ M[src.toNat]'h.1) h.2)
  else none

/-- `CONVERT`: the pass over the operation list in index order; `none` is `Inconsistent` (rule R72). -/
def convert (M : GenMatrix) : List OpEntry → Option GenMatrix
  | [] => some M
  | e :: es =>
    match rowXor M (OpEntry.src e) (OpEntry.tgt e) with
    | some M' => convert M' es
    | none => none

/-- `SYSCHK(M)`: the left 6 × 6 block is the identity (rule R73). -/
def sysChk (M : GenMatrix) : Bool :=
  decide (∀ j i : Fin 6, M.bit j (Fin.castLE (by omega) i) = decide (i = j))

/-- `P`: `P[j][c] = G[j][6+c]` (rule R77). -/
def parityBlock (G : GenMatrix) : BMat 6 4 :=
  Vector.ofFn fun j => BitVec.ofFnLE fun c : Fin 4 => G.bit j (Fin.natAdd 6 c)

/-- The transpose of a matrix (rule R77). -/
def transpose {a b : Nat} (M : BMat a b) : BMat b a := Vector.ofFn fun i => col M i

/-- `I_m` (rule R8). -/
def identity (m : Nat) : BMat m m := Vector.ofFn fun a => BitVec.ofFnLE fun b => decide (a = b)

/-- `[A | B]`: row `j` is `A[j] ++ B[j]`, the elements of `A[j]` first, so at the low bits (rules R8 and R33). -/
def beside {a b c : Nat} (A : BMat a b) (B : BMat a c) : BMat a (c + b) := Vector.ofFn fun j => B[j] ++ A[j]

/-- `PCDERIVE(G) = [P^T | I_4]` (rule R77). -/
def pcDerive (G : GenMatrix) : CheckMatrix := beside (transpose (parityBlock G)) (identity 4)

/-- `WF_SYS(cfg)` (rule R76). -/
def wfSys (cfg : Config) : Bool :=
  match convert cfg.seed cfg.ops with
  | some M => sysChk M
  | none => false

/-- The condition of `WF_COL` on a parity-check matrix: the ten columns are pairwise distinct and none is zero (rule R81). -/
def columnsDistinct (H : CheckMatrix) : Bool :=
  decide ((∀ p q : Fin 10, p ≠ q → col H p ≠ col H q) ∧ ∀ p : Fin 10, col H p ≠ 0#4)

/-- `WF_COL(cfg)` (rule R81). -/
def wfCol (cfg : Config) : Bool :=
  match convert cfg.seed cfg.ops with
  | some M => sysChk M && columnsDistinct (pcDerive M)
  | none => false

/-- What a construction makes of a conversion's result (the two branches of rule R78). -/
def coderOf : Option GenMatrix → Coder
  | none => .fault
  | some M => if sysChk M then .ready M (pcDerive M) else .fault

/-- The value of `(phase, G, H)` after reset (rule R24). -/
def constructCoder (cfg : Config) : Coder := coderOf (convert cfg.seed cfg.ops)

end Sys2Proof.Machine
end

