-- ==== Sys2Proof/Machine/Flags.lean ====
section
/-! DEFINITION. Statuses, error codes, responses and the output word (rules R45 to R47, R104, R116, R123). -/

namespace Sys2Proof.Machine

/-- The decode statuses (rule R47). -/
inductive DecodeStatus where
  | valid | corrected | uncorrectable
deriving DecidableEq, Repr

/-- The status codes of `OUT[13:12]` (rule R47); 0 is NONE. -/
def DecodeStatus.code : DecodeStatus → BitVec 2
  | .valid => 1#2
  | .corrected => 2#2
  | .uncorrectable => 3#2

/-- The two error conditions (rule R115). -/
inductive CallError where
  /-- The operand has not the required length (rule R117). -/
  | invalidLength
  /-- `phase = FAULT` (rule R118). -/
  | configFault
deriving DecidableEq, Repr

/-- The error codes of `OUT[15:14]` (rule R116); 0 is no error and 3 is never produced. -/
def CallError.code : CallError → BitVec 2
  | .invalidLength => 1#2
  | .configFault => 2#2

/-- A DecodeResult (rule R9): the payload is absent, not zero, when the status is UNCORRECTABLE (rule R46). -/
structure DecodeResult where
  payload : Option SourceWord
  status : DecodeStatus
deriving DecidableEq, Repr

/-- What one step answers to its caller (rule R46). -/
inductive Response where
  /-- CONSTRUCT and IDLE: no response. -/
  | silent
  /-- The 11-bit encoded word of an ENCODE. -/
  | encoded (e : CodedWord)
  /-- The result of a DECODE. -/
  | decoded (r : DecodeResult)
  /-- The error response (rule R123). -/
  | rejected (e : CallError)
deriving DecidableEq, Repr

/-- An output word from its six fields (rule R45). -/
def outWord (fault rspValid : Bool) (err status : BitVec 2) (pv : Bool) (data : BitVec 11) : OutWord :=
  BitVec.ofBool fault ++ BitVec.ofBool rspValid ++ err ++ status ++ BitVec.ofBool pv ++ data

/-- The output word of a response, `fault` being `phase` after the step (rule R46). -/
def Response.render (fault : Bool) : Response → OutWord
  | .silent => outWord fault false 0#2 0#2 false 0#11
  | .encoded e => outWord fault true 0#2 0#2 false e
  | .decoded { payload := some p, status := st } => outWord fault true 0#2 st.code true (p.setWidth 11)
  | .decoded { payload := none, status := st } => outWord fault true 0#2 st.code false 0#11
  | .rejected e => outWord fault true e.code 0#2 false 0#11

/-- `OUT[17]` (rule R45). -/
def OutWord.fault (o : OutWord) : Bool := o[17]

/-- `OUT[16]` (rule R45). -/
def OutWord.rspValid (o : OutWord) : Bool := o[16]

/-- `OUT[15:14]` (rule R45). -/
def OutWord.err (o : OutWord) : BitVec 2 := o.extractLsb' 14 2

/-- `OUT[13:12]` (rule R45). -/
def OutWord.status (o : OutWord) : BitVec 2 := o.extractLsb' 12 2

/-- `OUT[11]` (rule R45). -/
def OutWord.pv (o : OutWord) : Bool := o[11]

/-- `OUT[10:0]` (rule R45). -/
def OutWord.data (o : OutWord) : BitVec 11 := o.extractLsb' 0 11

/-- The decode payload an output word shows: `data[5:0]` if `pv` is 1, else absent (rules R45 and R46). -/
def OutWord.payload (o : OutWord) : Option SourceWord :=
  if OutWord.pv o then some ((OutWord.data o).setWidth 6) else none

end Sys2Proof.Machine
end

