-- ==== Sys2Proof/Machine/State.lean ====
section
/-! DEFINITION. The state of the coder core (rules R10 to R25), the reasons a step can stop, and the state after reset. -/

namespace Sys2Proof.Machine

/-- The MatrixConverter (rules R70 and R72). The working matrix exists only inside a CONSTRUCT step (rule R21), so between
steps the converter is idle (log entry 5). -/
inductive Converter where
  /-- No conversion is under way. -/
  | idle
  /-- A conversion is under way and this is its working matrix `M`. -/
  | working (M : GenMatrix)
  /-- The conversion has met a reserved entry: the failure `Inconsistent` of rule R72. -/
  | inconsistent
deriving DecidableEq, Repr

/-- The state of one coder instance with its constants and its two ports. -/
structure State where
  /-- The read-only stores SEED and OPS (rules R11, R12, R31); no step writes them. -/
  cfg : Config
  /-- `(phase, G, H)` (rule R10); `none` is the time before the first reset (rule R25; log entry 4). -/
  coder : Option Coder
  /-- The MatrixConverter's working matrix (rule R72). -/
  conv : Converter
  /-- The input words the host is going to present, the next one first (rules R40 and R146; log entry 2). -/
  inputs : List InWord
  /-- The output word of the step just taken; `none` where no step has been taken (rule R40; log entry 3). -/
  out : Option OutWord
deriving DecidableEq, Repr

/-- Model faults. There are none (rules R127 and R128): every error of this hardware is an output of an ordinary step, so
this type has no constructor and no step can end in a fault. -/
inductive Fault where
deriving DecidableEq, Repr

/-- Why the model gives a step no meaning. -/
inductive Refusal where
  /-- Raised by no arm of `exec`: every instruction has its meaning. It is the name under which an instruction without one
  would be rejected. Safe. -/
  | notModelled (mnemonic : String)
  /-- Raised by IDLE, ENCODE and DECODE presented before the first reset: the spec leaves the state unspecified and refuses
  the step (rules R25 and R128, open point U6). Safe. -/
  | beforeReset
  /-- Raised by ROWXOR where no conversion is under way, so that there is no working matrix: it is executed only inside
  CONSTRUCT (rules R21 and R70). Safe. -/
  | noConversion
  /-- Raised by `step` where the host presents no input word: the run has ended (rule R146). Safe. -/
  | noInputWord
deriving DecidableEq, Repr

/-- The state after a reset step (rule R24; log entry 11): `(phase, G, H)` as the construction leaves them, and the output word of the
reset step. No input word is waiting (log entry 2) and no conversion is under way (log entry 5). -/
def State.reset : State where
  cfg := Config.built
  coder := some (constructCoder Config.built)
  conv := .idle
  inputs := []
  out := some (Response.silent.render (constructCoder Config.built).phase)

end Sys2Proof.Machine
end

