-- ==== Sys2Proof/Machine/Ops.lean ====
section
/-! DEFINITION. The operations the meanings share: presenting an answer, rejecting a call, the working matrix of the
MatrixConverter, and taking the next input word. -/

namespace Sys2Proof.Machine

/-- `phase` as a bit, of a block that has been reset; the output bit `fault` shows it (rules R16 and R45). -/
def State.phase (s : State) : Bool :=
  match s.coder with
  | some c => c.phase
  | none => false

/-- Answer the caller: the output word of this step is the rendering of `r`, with `phase` after the step as its `fault` bit
(rules R40 and R46). Nothing else changes. -/
def State.respond (s : State) (r : Response) : State := { s with out := some (r.render s.phase) }

/-- `raise E`: the one operation by which a call is rejected. It gives the error response (rules R8, R121, R123); no state
is saved, control goes nowhere and there is nothing to return from (rules R121, R122, R124). -/
def raise (e : CallError) : Response := .rejected e

/-- The two checks every call makes before a matrix is read, in the order of rules R85, R95 and R120: first `phase`, then
the operand length; `answer` is what the call computes from the matrices once both have passed. -/
def checkedCall (c : Coder) (required : Nat) (seq : Operand)
    (answer : GenMatrix → CheckMatrix → Response) : Response :=
  match c with
  | .fault => raise .configFault
  | .ready G H => if seq.len = required then answer G H else raise .invalidLength

/-- `M <- copy of SEED` (rule R72). -/
def State.openConverter (s : State) : State := { s with conv := .working s.cfg.seed }

/-- One ROWXOR on the working matrix (rule R70); an index above 5 makes the conversion `Inconsistent`, and a conversion that
has ended runs no further entry (rule R72; log entry 14). -/
def State.convertEntry (s : State) (src tgt : RowIndex) : State :=
  match s.conv with
  | .working M =>
    match rowXor M src tgt with
    | some M' => { s with conv := .working M' }
    | none => { s with conv := .inconsistent }
  | _ => s

/-- The pass over the entries of an operation list, in index order (rule R72). -/
def State.convertAll (s : State) : List OpEntry → State
  | [] => s
  | e :: es => (s.convertEntry (OpEntry.src e) (OpEntry.tgt e)).convertAll es

/-- The result of the conversion: a matrix, or `none` for `Inconsistent` (rule R72). -/
def Converter.result : Converter → Option GenMatrix
  | .working M => some M
  | .idle => none
  | .inconsistent => none

/-- The single assignment of `(phase, G, H)` at the end of CONSTRUCT (rules R39 and R78); the working matrix leaves nothing
behind (rule R21). -/
def State.closeConverter (s : State) : State :=
  { s with coder := some (coderOf s.conv.result), conv := .idle }

/-- Take the next input word the host presents (rules R40 and R146). -/
def State.takeInput (s : State) : Option (InWord × State) :=
  match s.inputs with
  | [] => none
  | w :: rest => some (w, { s with inputs := rest })

end Sys2Proof.Machine
end

