-- ==== Sys2Proof/Machine/Construct.lean ====
section
/-! DEFINITION. The construction family: CONSTRUCT (rules R72 to R79) and ROWXOR (rules R70 and R71). -/

namespace Sys2Proof.Machine

/-- `CONSTRUCT` (rule R78): convert a copy of the seed by the operation list, check the result, derive `H`, write
`(phase, G, H)`; from any previous state, as one atomic step. It answers nothing but the `fault` bit. -/
def execConstruct (s : State) : Host.Outcome State Fault Refusal :=
  .next (((s.openConverter.convertAll s.cfg.ops).closeConverter).respond .silent)

/-- `ROWXOR src, tgt` (rule R70) on the working matrix of the conversion under way. -/
def execRowxor (src tgt : RowIndex) (s : State) : Host.Outcome State Fault Refusal :=
  match s.conv with
  | .working _ => .next (s.convertEntry src tgt)
  | _ => .refused .noConversion

end Sys2Proof.Machine
end

