-- ==== Sys2Proof/Machine/Decoder.lean ====
section
/-! DEFINITION. The syndrome decoder and the error-location classifier: DECODE (rules R95 to R111), and IDLE (rule R112). -/

namespace Sys2Proof.Machine

/-- `body = rw[0..10)` (rule R97). -/
def bodyOf (rw : CodedWord) : Body := rw.setWidth 10

/-- `SYNDROME(H, body)` (rule R96). -/
def syndrome (H : CheckMatrix) (body : Body) : Syndrome := mvmul H body

/-- The result of the classifier (rule R99). -/
inductive ErrorClass where
  | valid
  | corrected (p : Fin 10)
  | uncorrectable
deriving DecidableEq, Repr

/-- The ten column indices in the order the classifier searches them (rule R100). -/
def columnIndices : List (Fin 10) := [0, 1, 2, 3, 4, 5, 6, 7, 8, 9]

/-- `CLASSIFY(H, syn)` (rule R99): the zero test first, then the least matching column (rule R100; log entry 7). -/
def classify (H : CheckMatrix) (syn : Syndrome) : ErrorClass :=
  if syn = 0#4 then .valid
  else
    match columnIndices.find? fun p => col H p = syn with
    | some p => .corrected p
    | none => .uncorrectable

/-- `e_p`: the sequence with a single 1 at index `p` (rule R27). -/
def unitBody (p : Fin 10) : Body := BitVec.ofFnLE fun j => decide (j = p)

/-- `body` with bit `p` inverted (rule R102). -/
def flipBit (body : Body) (p : Fin 10) : Body := body ^^^ unitBody p

/-- `body[0..6)` (rule R101). -/
def payloadOf (body : Body) : SourceWord := body.setWidth 6

/-- The DecodeResult of a received word (rules R101 to R103). The overall parity bit `rw[10]` is not used (rule R107; log
entry 15). -/
def decodeWord (H : CheckMatrix) (rw : CodedWord) : DecodeResult :=
  match classify H (syndrome H (bodyOf rw)) with
  | .valid => { payload := some (payloadOf (bodyOf rw)), status := .valid }
  | .corrected p => { payload := some (payloadOf (flipBit (bodyOf rw) p)), status := .corrected }
  | .uncorrectable => { payload := none, status := .uncorrectable }

/-- The answer of the decoder to an operand (rules R95 and R103). -/
def decodeCall (c : Coder) (seq : Operand) : Response :=
  checkedCall c 11 seq fun _ H => .decoded (decodeWord H seq.receivedWord)

/-- `DECODE seq` (rule R103). Before the first reset it is refused (rule R25). -/
def execDecode (len : BitVec 4) (data : BitVec 15) (s : State) : Host.Outcome State Fault Refusal :=
  match s.coder with
  | some c => .next (s.respond (decodeCall c (operand len data)))
  | none => .refused .beforeReset

/-- `IDLE` (rule R112): no state changes and only the `fault` bit is shown. Before the first reset it is refused (rule R25). -/
def execIdle (s : State) : Host.Outcome State Fault Refusal :=
  match s.coder with
  | some _ => .next (s.respond .silent)
  | none => .refused .beforeReset

end Sys2Proof.Machine
end

