-- ==== Sys2Proof/Machine/Encoder.lean ====
section
/-! DEFINITION. The Hamming (10,6) encoder: ENCODE (rules R85 to R90). -/

namespace Sys2Proof.Machine

/-- `e = c ++ (q)` with `c = VMUL(s, G)` and `q = XORRED(c)` (rule R86): the parity bit is element 10. -/
def encodeWord (G : GenMatrix) (s : SourceWord) : CodedWord :=
  BitVec.cons (xorRed (vmul s G)) (vmul s G)

/-- The answer of the encoder to an operand (rules R85 and R86). -/
def encodeCall (c : Coder) (seq : Operand) : Response :=
  checkedCall c 6 seq fun G _ => .encoded (encodeWord G seq.sourceWord)

/-- `ENCODE seq` (rule R86). Before the first reset it is refused (rule R25). -/
def execEncode (len : BitVec 4) (data : BitVec 15) (s : State) : Host.Outcome State Fault Refusal :=
  match s.coder with
  | some c => .next (s.respond (encodeCall c (operand len data)))
  | none => .refused .beforeReset

end Sys2Proof.Machine
end

