-- ==== Sys2Proof/Machine/Dispatch.lean ====
section
/-! DEFINITION. The meaning of every instruction, one arm each. -/

namespace Sys2Proof.Machine

def exec (i : Instr) (s : State) : Host.Outcome State Fault Refusal :=
  match i with
  | .construct => Sys2Proof.Machine.execConstruct s
  | .idle => Sys2Proof.Machine.execIdle s
  | .encode len data => Sys2Proof.Machine.execEncode len data s
  | .decode len data => Sys2Proof.Machine.execDecode len data s
  | .rowxor src tgt => Sys2Proof.Machine.execRowxor src tgt s

end Sys2Proof.Machine
end

