-- ==== Sys2Proof/Machine/Step.lean ====
section
/-! DEFINITION. One step (rule R40): take the next input word, decode it, run it. -/

namespace Sys2Proof.Machine

/-- One atomic step of the block (rules R40, R41, R146). -/
def step (s : State) : Host.Outcome State Fault Refusal :=
  match s.takeInput with
  | some (w, s') => exec (decodeCmd w) s'
  | none => .refused .noInputWord

/-- `s` with an instruction placed so that the very next step runs it. A CMD word (more than 8 bits) is presented as the
next input word. A ROWXOR entry (at most 8 bits) is executed only inside CONSTRUCT (rule R70): it becomes the whole operation
list, and a reset word is presented, so that the next step runs exactly this entry (log entry 6). -/
def State.withFetchWord (s : State) (nbits w : Nat) : State :=
  if nbits ≤ 8 then
    { s with cfg := { s.cfg with ops := [BitVec.ofNat 6 w] }, inputs := 0x200000#22 :: s.inputs }
  else { s with inputs := BitVec.ofNat 22 w :: s.inputs }

end Sys2Proof.Machine
end

