-- ==== Sys2Proof/Machine/Reference.lean ====
section
/-! DEFINITION. The reference instance `REF` of rule R82: the one concrete `cfg` the spec fixes, for test vectors and examples
only. Neither `step` nor `State.reset` uses it, since no value of it may be taken as the block's own (rules R6 and R82): the
block as built is `Config.built`. -/

namespace Sys2Proof.Machine

/-- `SEED_REF`, by the row words of rule R82. -/
def seedRef : GenMatrix := #v[0x087, 0x092, 0x029, 0x0C8, 0x18B, 0x289]

/-- `OPS_REF`, by the sixteen entry words of rule R82. -/
def opsRef : List OpEntry :=
  [0x02, 0x04, 0x05, 0x08, 0x0A, 0x0D, 0x10, 0x14, 0x15, 0x18, 0x1A, 0x21, 0x22, 0x28, 0x29, 0x2C]

/-- `REF` (rule R82). -/
def refConfig : Config := { seed := seedRef, ops := opsRef }

/-- `G_REF`, by the row words of rule R82. -/
def gRef : GenMatrix := #v[0x241, 0x302, 0x1C4, 0x0C8, 0x390, 0x2A0]

/-- `H_REF`, by the row words of rule R82. -/
def hRef : CheckMatrix := #v[0x04D, 0x0BC, 0x116, 0x233]

end Sys2Proof.Machine
end

