-- ==== Sys2Proof/Safety.lean ====
section
/-! DEFINITION. The terms in which claims about the coder core are stated: the invariant of a state, the output words the
spec lists, runs (rule R146), and counting of bits. -/

namespace Sys2Proof.Machine

/-- The fields an output word shows are those of one line of the table of rule R46. -/
abbrev OutWord.listed (o : OutWord) : Prop :=
  -- CONSTRUCT and IDLE
  (OutWord.rspValid o = false ∧ OutWord.err o = 0#2 ∧ OutWord.status o = 0#2 ∧ OutWord.pv o = false ∧ OutWord.data o = 0#11)
  -- any call in FAULT
  ∨ (OutWord.fault o = true ∧ OutWord.rspValid o = true ∧ OutWord.err o = 2#2 ∧ OutWord.status o = 0#2 ∧
      OutWord.pv o = false ∧ OutWord.data o = 0#11)
  -- a wrong length
  ∨ (OutWord.fault o = false ∧ OutWord.rspValid o = true ∧ OutWord.err o = 1#2 ∧ OutWord.status o = 0#2 ∧
      OutWord.pv o = false ∧ OutWord.data o = 0#11)
  -- an encoded word
  ∨ (OutWord.fault o = false ∧ OutWord.rspValid o = true ∧ OutWord.err o = 0#2 ∧ OutWord.status o = 0#2 ∧
      OutWord.pv o = false)
  -- VALID or CORRECTED
  ∨ (OutWord.fault o = false ∧ OutWord.rspValid o = true ∧ OutWord.err o = 0#2 ∧
      (OutWord.status o = 1#2 ∨ OutWord.status o = 2#2) ∧ OutWord.pv o = true ∧ (OutWord.data o).extractLsb' 6 5 = 0#5)
  -- UNCORRECTABLE
  ∨ (OutWord.fault o = false ∧ OutWord.rspValid o = true ∧ OutWord.err o = 0#2 ∧ OutWord.status o = 3#2 ∧
      OutWord.pv o = false ∧ OutWord.data o = 0#11)

/-- What every step keeps: no conversion is left under way (rule R21); once the block has been reset `(phase, G, H)` is
what its constants give (rules R24 and R136); an output word is one the spec lists, given by a block that has been reset,
and shows the phase (rules R45 and R46). -/
structure State.Inv (s : State) : Prop where
  conv_idle : s.conv = .idle
  coder_built : ∀ c, s.coder = some c → c = constructCoder s.cfg
  out_listed : ∀ o, s.out = some o → OutWord.listed o ∧ s.coder.isSome = true ∧ OutWord.fault o = s.phase

/-- The block before its first reset (rules R25 and R146). -/
def State.preReset (cfg : Config) : State where
  cfg := cfg
  coder := none
  conv := .idle
  inputs := []
  out := none

/-- The host presents exactly these words, in this order. -/
def State.present (s : State) (ws : List InWord) : State := { s with inputs := ws }

/-- The output word of the step that a block in state `s` takes on the input word `w`, if it takes one. -/
def stepOut (s : State) (w : InWord) : Option OutWord :=
  match step (s.present [w]) with
  | .next t => t.out
  | _ => none

/-- A run (rule R146): the words are presented one at a time; the result is the state after the last one and the sequence
of output words, one per input word. -/
def runWords (s : State) : List InWord → Option (State × List OutWord)
  | [] => some (s, [])
  | w :: ws =>
    match step (s.present [w]) with
    | .next t =>
      match t.out, runWords t ws with
      | some o, some (u, os) => some (u, o :: os)
      | _, _ => none
    | _ => none

/-- The output word with which an instruction answers, if it gives a next state. -/
def answer (i : Instr) (s : State) : Option OutWord :=
  match exec i s with
  | .next t => t.out
  | _ => none

/-- The instructions of a list run one after the other. -/
def execAll (s : State) : List Instr → Host.Outcome State Fault Refusal
  | [] => .next s
  | i :: is =>
    match exec i s with
    | .next t => execAll t is
    | .fault r => .fault r
    | .refused r => .refused r

/-- A run in which nothing went wrong: `fault = 0` and `err = 0` on every output word (rule R128). -/
def cleanOutputs (os : List OutWord) : Prop := ∀ o ∈ os, OutWord.fault o = false ∧ OutWord.err o = 0#2

/-- The number of ones of a bit sequence. -/
def ones {m : Nat} (v : BitVec m) : Nat := (List.range m).countP v.getLsbD

/-- The XOR of a list of bits (rule R60). -/
def xorList (bs : List Bool) : Bool := bs.foldl (· ^^ ·) false

/-- The ENCODE instruction for a source word: `ENC (b0, …, b5)` of rule R51. -/
def encOf (s : SourceWord) : Instr := .encode 6#4 (s.setWidth 15)

/-- The DECODE instruction for a received word: `DEC (b0, …, b10)` of rule R51. -/
def decOf (rw : CodedWord) : Instr := .decode 11#4 (rw.setWidth 15)

/-- The output word of a VALID decode with this payload (rule R104). -/
def validWord (p : SourceWord) : OutWord := 0x11800#18 + p.setWidth 18

/-- The output word of a CORRECTED decode with this payload (rule R104). -/
def correctedWord (p : SourceWord) : OutWord := 0x12800#18 + p.setWidth 18

/-- The output word of an UNCORRECTABLE decode (rule R104). -/
def uncorrectableWord : OutWord := 0x13000#18

/-- The output word of an ENCODE with this result (rule R86). -/
def encodedWord (e : CodedWord) : OutWord := 0x10000#18 + e.setWidth 18

end Sys2Proof.Machine
end

