-- ==== Sys2Proof/Certificates/Slice0/Obligations.lean ====
section
/-! DEFINITION. The statements for the provers. A statement about a machine step holds for every state, so for every
`cfg = (SEED, OPS)` (rule R6); where only states a run reaches are meant, the invariant `State.Inv` is a premise. -/

open Sys2Proof Sys2Proof.Machine

/-! ### The step, decoding and encoding -/

/-- Sections 1 and 2 of 30_encoding.md: a step takes the next input word and runs the instruction it decodes to, with that
word taken off the queue and nothing else changed; with no word presented the model gives no step (log entry 2, the
model's choice). -/
def Obligations.StepRunsDecodedInstruction : Prop :=
  (∀ (s : State) (w : InWord) (rest : List InWord), s.inputs = w :: rest →
    step s = exec (decodeCmd w) { s with inputs := rest }) ∧
  (∀ s : State, s.inputs = [] → step s = .refused .noInputWord)

/-- Rule R41: the priority decode of `IN`, total over all input words, with the five fields at their bit positions. -/
def Obligations.InputWordDecodePriority : Prop :=
  ∀ w : InWord,
    (w[21] = true → decode (.cmd w) = .ok .construct) ∧
    (w[21] = false → w[20] = false → decode (.cmd w) = .ok .idle) ∧
    (w[21] = false → w[20] = true → ∀ (len : BitVec 4) (data : BitVec 15),
      (∀ i : Fin 4, len[i] = w[15 + i.val]) → (∀ i : Fin 15, data[i] = w[i.val]) →
      (w[19] = false → decode (.cmd w) = .ok (.encode len data)) ∧
      (w[19] = true → decode (.cmd w) = .ok (.decode len data)))

/-- Rule R52 (marked derived by the spec): the worked encodings, and the reading of the worked output word. -/
def Obligations.WorkedEncodings : Prop :=
  encode (encOf 0b110110#6) = .cmd 0x130036#22 ∧ decode (.cmd 0x130036#22) = .ok (.encode 6#4 0x36#15) ∧
  encode (decOf 0b11111111111#11) = .cmd 0x1D87FF#22 ∧ decode (.cmd 0x1D87FF#22) = .ok (.decode 11#4 0x7FF#15) ∧
  encode (.encode 5#4 0b10110#15) = .cmd 0x128016#22 ∧ decode (.cmd 0x128016#22) = .ok (.encode 5#4 0x16#15) ∧
  encode (.rowxor 5#3 4#3) = .oprom 0b101100#6 ∧ decode (.oprom 0x2C#6) = .ok (.rowxor 5#3 4#3) ∧
  OutWord.fault 0x11836#18 = false ∧ OutWord.rspValid 0x11836#18 = true ∧ OutWord.err 0x11836#18 = 0#2 ∧
  OutWord.status 0x11836#18 = 1#2 ∧ OutWord.pv 0x11836#18 = true ∧ OutWord.data 0x11836#18 = 0x036#11 ∧
  OutWord.payload 0x11836#18 = some 0b110110#6

/-- Section 6 of 30_encoding.md: every input word selects exactly one of the four CMD rows by `(w & mask) = match`, and
that row is the row of the instruction it decodes to. -/
def Obligations.OpcodeMapDisjointAndTotal : Prop :=
  ∀ (w : InWord) (r : OpRow), r.selects w = true ↔ (decodeCmd w).row = some r

/-- Decoding the encoding of any well-formed instruction gives it back, with every operand at every value. -/
def Obligations.DecodeOfEncodeIsIdentity : Prop :=
  ∀ i : Instr, i.wellFormed = true → decode (encode i) = .ok i

/-- The other direction, with rules R41 and R50 on ignored bits: encoding what a word decodes to gives the word back, with
the ignored bits of CONSTRUCT and IDLE cleared; and an operation-list entry that decodes is given back whole. -/
def Obligations.EncodeOfDecodeKeepsFields : Prop :=
  (∀ (w : InWord) (i : Instr), decode (.cmd w) = .ok i → encode i = .cmd
    (match i with
      | .construct => w &&& 0x200000#22
      | .idle => w &&& 0x300000#22
      | _ => w)) ∧
  (∀ (e : OpEntry) (i : Instr), decode (.oprom e) = .ok i → encode i = .oprom e)

/-- Rule R48 and the OPROM sentence of rule R50: `E = 8·src + tgt`; exactly the entries with `src ≥ 6` or `tgt ≥ 6` are
reserved, and they are 28 of the 64. -/
def Obligations.ReservedEntriesAreRejected : Prop :=
  (∀ src tgt : RowIndex, src.toNat ≤ 5 → tgt.toNat ≤ 5 →
    decode (.oprom (BitVec.ofNat 6 (8 * src.toNat + tgt.toNat))) = .ok (.rowxor src tgt)) ∧
  (∀ src tgt : RowIndex, 6 ≤ src.toNat ∨ 6 ≤ tgt.toNat →
    decode (.oprom (BitVec.ofNat 6 (8 * src.toNat + tgt.toNat))) = .error .reservedRowIndex) ∧
  ((List.range 64).countP fun n => (decodeTableWord 6 n).isNone) = 28

/-- Rule R44: data lanes at or above `len` have no effect on the state or on `OUT`. -/
def Obligations.LanesAboveLengthAreIgnored : Prop :=
  ∀ (len : BitVec 4) (d d' : BitVec 15) (s : State),
    (∀ i : Fin 15, i.val < len.toNat → d[i] = d'[i]) →
    exec (.encode len d) s = exec (.encode len d') s ∧ exec (.decode len d) s = exec (.decode len d') s

/-! ### The GF(2) multiplier -/

/-- Rule R61: `XORRED(v)` is 1 exactly when `v` has an odd number of ones, for every length, the empty sequence too. -/
def Obligations.XorRedIsOddNumberOfOnes : Prop :=
  ∀ (m : Nat) (v : BitVec m),
    xorRed v = xorList ((List.range m).map v.getLsbD) ∧ (xorRed v = true ↔ ones v % 2 = 1)

/-- Section 4 of 40_gf2_multiplier.md: `VMUL(s, M)` is the XOR of the rows of `M` selected by the ones of `s`. -/
def Obligations.VmulIsXorOfSelectedRows : Prop :=
  ∀ (a b : Nat) (s : BitVec a) (M : BMat a b),
    vmul s M = ((List.finRange a).filter fun j => s[j]).foldl (fun c j => c ^^^ M[j]) 0#b

/-- Section 5 of 40_gf2_multiplier.md: `MVMUL(M, b)` is the XOR of the columns of `M` selected by the ones of `b`, and
it is `VMUL(b, M^T)`. -/
def Obligations.MvmulIsXorOfSelectedColumns : Prop :=
  ∀ (a m : Nat) (M : BMat a m) (b : BitVec m),
    mvmul M b = ((List.finRange m).filter fun j => b[j]).foldl (fun y j => y ^^^ col M j) 0#a ∧
    mvmul M b = vmul b (transpose M)

/-- Sections 4 to 6 of 40_gf2_multiplier.md: both products are linear in the sequence operand. -/
def Obligations.ProductsAreLinear : Prop :=
  (∀ (a b : Nat) (s s' : BitVec a) (M : BMat a b), vmul (s ^^^ s') M = vmul s M ^^^ vmul s' M) ∧
  (∀ (a m : Nat) (M : BMat a m) (b b' : BitVec m), mvmul M (b ^^^ b') = mvmul M b ^^^ mvmul M b')

/-! ### ROWXOR and CONSTRUCT -/

/-- Rule R70: ROWXOR on the working matrix of the conversion under way. It completes, replaces the target row by its XOR
with the source row, leaves every other row and every other part of the state (phase, `G`, `H`, the constants, the
ports). Its entry is `8·src + tgt`, and no input word reaches it. -/
def Obligations.RowXorReplacesTargetRow : Prop :=
  ∀ (s : State) (M : GenMatrix) (src tgt : RowIndex) (hs : src.toNat ≤ 5) (ht : tgt.toNat ≤ 5), s.conv = .working M →
    ∃ M' : GenMatrix, exec (.rowxor src tgt) s = .next { s with conv := .working M' } ∧
      M'[tgt.toNat] = M[tgt.toNat] ^^^ M[src.toNat] ∧
      (∀ j : Fin 6, j.val ≠ tgt.toNat → M'[j] = M[j]) ∧
      encode (.rowxor src tgt) = .oprom (BitVec.ofNat 6 (8 * src.toNat + tgt.toNat)) ∧
      ∀ w : InWord, decode (.cmd w) ≠ .ok (.rowxor src tgt)

/-- Section 2 of 41_construct.md (the index check) and the model's reading of it (log entries 5 and 14): a row index
above 5 makes the conversion fail, whatever the working matrix; where no conversion is under way ROWXOR is refused by
name. -/
def Obligations.RowXorOutsideItsDomain : Prop :=
  (∀ (s : State) (M : GenMatrix) (src tgt : RowIndex), s.conv = .working M → 6 ≤ src.toNat ∨ 6 ≤ tgt.toNat →
    exec (.rowxor src tgt) s = .next { s with conv := .inconsistent }) ∧
  (∀ (s : State) (src tgt : RowIndex), s.conv = .idle ∨ s.conv = .inconsistent →
    exec (.rowxor src tgt) s = .refused .noConversion)

/-- Section 1 of 41_construct.md, corner cases (b) and (c): `src = tgt` zeroes the row; with `src ≠ tgt` the operation
undoes itself. -/
def Obligations.RowXorSelfZeroesElseInvolutive : Prop :=
  (∀ (M : GenMatrix) (r : RowIndex) (hr : r.toNat ≤ 5), ∃ M', rowXor M r r = some M' ∧ M'[r.toNat] = 0#10) ∧
  (∀ (M M' : GenMatrix) (src tgt : RowIndex), src ≠ tgt → rowXor M src tgt = some M' → rowXor M' src tgt = some M)

/-- Section 2 of 41_construct.md: the converter's pass is the run of the ROWXOR instructions its entries decode to, in
index order. If every entry decodes, running the decoded instructions one after the other from the working matrix `M`
ends with the working matrix that CONVERT computes; if some entry is reserved, CONVERT is `Inconsistent`. The working
matrix between two ROWXOR instructions is the model's field `conv` (log entry 5). -/
def Obligations.ConvertRunsRowXorInOrder : Prop :=
  (∀ (es : List OpEntry) (is : List Instr) (s : State) (M : GenMatrix), s.conv = .working M →
    es.map (fun e => decode (.oprom e)) = is.map .ok →
    ∃ M', convert M es = some M' ∧ execAll s is = .next { s with conv := .working M' }) ∧
  (∀ (es : List OpEntry) (M : GenMatrix), (∃ e ∈ es, decode (.oprom e) = .error .reservedRowIndex) → convert M es = none)

/-- Rule R78: CONSTRUCT completes from every state and is the pseudocode of the rule: `r <- CONVERT(SEED, OPS)`, FAULT
if `r` is `Inconsistent` or fails `SYSCHK`, else READY with `G = r` and `H = PCDERIVE(r)`; the output word is all zero
but for `fault`. The constants and the waiting input words are unchanged, and no working matrix is left (log entry 5).
Every word with `IN[21] = 1` is a CONSTRUCT. -/
def Obligations.ConstructBuildsMatricesOrFaults : Prop :=
  ∀ s : State,
    (∀ M, convert s.cfg.seed s.cfg.ops = some M → sysChk M = true →
      exec .construct s = .next { s with coder := some (.ready M (pcDerive M)), conv := .idle, out := some 0x00000#18 }) ∧
    ((convert s.cfg.seed s.cfg.ops = none ∨ ∃ M, convert s.cfg.seed s.cfg.ops = some M ∧ sysChk M = false) →
      exec .construct s = .next { s with coder := some .fault, conv := .idle, out := some 0x20000#18 }) ∧
    ∀ w : InWord, w[21] = true → decode (.cmd w) = .ok .construct

/-- Rule R24: after a step whose input has `rst = 1` the state is, for every previous state, the one the table gives; and
`State.reset` is that state for the constants of the block as built. -/
def Obligations.ResetStepLeavesTableState : Prop :=
  (∀ (s : State) (w : InWord) (rest : List InWord), s.inputs = w :: rest → w[21] = true →
    ∃ t, step s = .next t ∧ t.cfg = s.cfg ∧
      (wfSys s.cfg = true → ∃ M, convert s.cfg.seed s.cfg.ops = some M ∧ sysChk M = true ∧
        t.coder = some (.ready M (pcDerive M)) ∧ t.out = some 0x00000#18) ∧
      (wfSys s.cfg = false → t.coder = some .fault ∧ t.out = some 0x20000#18)) ∧
  ((∃ M, convert State.reset.cfg.seed State.reset.cfg.ops = some M ∧ sysChk M = true ∧
      State.reset.coder = some (.ready M (pcDerive M)) ∧ State.reset.out = some 0x00000#18) ∨
    (wfSys State.reset.cfg = false ∧ State.reset.coder = some .fault ∧ State.reset.out = some 0x20000#18))

/-- Rule R76 (marked derived by the spec): CONSTRUCT ends in READY exactly when `WF_SYS(cfg)` holds, that is when
CONVERT returns a matrix and `SYSCHK` holds of it. -/
def Obligations.ReadyExactlyWhenWfSys : Prop :=
  ∀ s : State,
    (wfSys s.cfg = true ↔ ∃ M, convert s.cfg.seed s.cfg.ops = some M ∧ sysChk M = true) ∧
    ∃ t, exec .construct s = .next t ∧ (t.phase = false ↔ wfSys s.cfg = true)

/-- Rule R136 (marked derived by the spec): the state `(phase, G, H)` after a reset step is a function of `cfg` alone,
the same from every previous state; a second reset changes nothing, and a reset in the middle of a run (a state that
meets the invariant) changes nothing but that its step produces no response. -/
def Obligations.ConstructIsHistoryFree : Prop :=
  (∀ s s' : State, s.cfg = s'.cfg →
    ∃ t t', exec .construct s = .next t ∧ exec .construct s' = .next t' ∧ t.coder = t'.coder ∧ t.out = t'.out ∧
      exec .construct t = .next t) ∧
  (∀ (s : State) (c : Coder), s.Inv → s.coder = some c →
    ∃ o, exec .construct s = .next { s with out := some o } ∧ OutWord.rspValid o = false)

/-- Section 4 of 41_construct.md, corner case (f): a reserved entry anywhere in the list makes construction end in
FAULT. -/
def Obligations.ReservedEntryAnywhereFaults : Prop :=
  ∀ (s : State) (e : OpEntry), e ∈ s.cfg.ops → 6 ≤ (OpEntry.src e).toNat ∨ 6 ≤ (OpEntry.tgt e).toNat →
    ∃ t, exec .construct s = .next t ∧ t.coder = some .fault ∧ t.out = some 0x20000#18

/-- Section 1 of 41_construct.md, corner case (b): a list with an entry `src = tgt` ends in FAULT, wherever the entry
stands and whatever the seed (the rank argument). -/
def Obligations.SelfXorEntryFaults : Prop :=
  ∀ (s : State) (e : OpEntry), e ∈ s.cfg.ops → OpEntry.src e = OpEntry.tgt e →
    ∃ t, exec .construct s = .next t ∧ t.coder = some .fault ∧ t.out = some 0x20000#18

/-- Section 2 of 41_construct.md: every list that passes the structural check on one seed yields the same matrices. -/
def Obligations.MatricesDependOnlyOnSeed : Prop :=
  ∀ (s s' t t' : State) (G G' : GenMatrix) (H H' : CheckMatrix), s.cfg.seed = s'.cfg.seed →
    exec .construct s = .next t → t.coder = some (.ready G H) →
    exec .construct s' = .next t' → t'.coder = some (.ready G' H') → G = G' ∧ H = H'

/-- Rule R77: `H = PCDERIVE(G)` element by element, and its columns: column `j` of `H` is row `j` of `P`, and column
`6+u` is the unit sequence with its 1 at index `u`. -/
def Obligations.PcDeriveBlocks : Prop :=
  ∀ G : GenMatrix,
    (∀ (j : Fin 6) (c : Fin 4), (parityBlock G).bit j c = G.bit j (Fin.natAdd 6 c)) ∧
    (∀ (t : Fin 4) (j : Fin 6), (pcDerive G).bit t (Fin.castLE (by omega) j) = G.bit j (Fin.natAdd 6 t)) ∧
    (∀ t u : Fin 4, (pcDerive G).bit t (Fin.natAdd 6 u) = decide (u = t)) ∧
    (∀ j : Fin 6, col (pcDerive G) (Fin.castLE (by omega) j) = (parityBlock G)[j]) ∧
    (∀ u : Fin 4, col (pcDerive G) (Fin.natAdd 6 u) = BitVec.ofFnLE fun t => decide (t = u))

/-- Rules R13 and R14: the forms of `G` and `H` in READY. -/
def Obligations.ReadyMatricesHaveSystematicForm : Prop :=
  ∀ (s : State) (G : GenMatrix) (H : CheckMatrix), s.Inv → s.coder = some (.ready G H) →
    (∀ j i : Fin 6, G.bit j (Fin.castLE (by omega) i) = decide (i = j)) ∧
    (∀ (t : Fin 4) (j : Fin 6), H.bit t (Fin.castLE (by omega) j) = G.bit j (Fin.natAdd 6 t)) ∧
    (∀ t u : Fin 4, H.bit t (Fin.natAdd 6 u) = decide (u = t))

/-- Rule R19 (marked derived by the spec): whenever `phase = READY`, `G · H^T = 0`, and every codeword's syndrome is the
zero vector. -/
def Obligations.GeneratorTimesCheckTransposeIsZero : Prop :=
  ∀ (s : State) (G : GenMatrix) (H : CheckMatrix), s.Inv → s.coder = some (.ready G H) →
    (∀ (j : Fin 6) (t : Fin 4), dot G[j] H[t] = false) ∧ ∀ v : SourceWord, mvmul H (vmul v G) = 0#4

/-- Section 5 of 41_construct.md: for a matrix that passes `SYSCHK`, the columns of `H` are pairwise distinct and non-zero
exactly when the six rows of `P` are pairwise distinct and each has at least two ones. -/
def Obligations.ColumnDistinctnessInTermsOfParityRows : Prop :=
  ∀ G : GenMatrix, columnsDistinct (pcDerive G) = true ↔
    (∀ j j' : Fin 6, j ≠ j' → (parityBlock G)[j] ≠ (parityBlock G)[j']) ∧ (∀ j : Fin 6, 2 ≤ ones (parityBlock G)[j])

/-! ### ENCODE -/

/-- Rule R86, bit by bit: in READY, ENCODE of an operand of length 6 completes and changes nothing but the output word,
which has `rsp_valid = 1`, the other control fields zero, the ten sums of products in lanes 0 to 9 and their XOR in lane
10. Its encoding is `IN[21:19] = 0b010`, then `len`, then `data`. -/
def Obligations.EncodeMultipliesByGenerator : Prop :=
  ∀ (s : State) (G : GenMatrix) (H : CheckMatrix) (data : BitVec 15), s.coder = some (.ready G H) →
    ∃ o : OutWord, exec (.encode 6#4 data) s = .next { s with out := some o } ∧
      o.extractLsb' 11 7 = 0b0100000#7 ∧
      (∀ i : Fin 10, o[i.val] = xorList [data[0] && G.bit 0 i, data[1] && G.bit 1 i, data[2] && G.bit 2 i,
        data[3] && G.bit 3 i, data[4] && G.bit 4 i, data[5] && G.bit 5 i]) ∧
      o[10] = xorList [o[0], o[1], o[2], o[3], o[4], o[5], o[6], o[7], o[8], o[9]] ∧
      decode (.cmd (0b010#3 ++ 6#4 ++ data)) = .ok (.encode 6#4 data)

/-- Rules R117, R118, R122 and R123, in the order of rule R120: in FAULT every ENCODE and DECODE, whatever its length and
data, answers `ConfigFault`; in READY a wrong length answers `InvalidLength`; nothing but the output word changes. -/
def Obligations.RejectedCallsAnswerTheirCode : Prop :=
  ∀ (s : State) (len : BitVec 4) (data : BitVec 15),
    (s.coder = some .fault →
      exec (.encode len data) s = .next { s with out := some 0x38000#18 } ∧
      exec (.decode len data) s = .next { s with out := some 0x38000#18 }) ∧
    (∀ G H, s.coder = some (.ready G H) →
      (len ≠ 6#4 → exec (.encode len data) s = .next { s with out := some 0x14000#18 }) ∧
      (len ≠ 11#4 → exec (.decode len data) s = .next { s with out := some 0x14000#18 }))

/-- Rule R87 (marked derived by the spec): the first six bits of an encoded word are the source word, and the next four
are `VMUL(s, P)`. -/
def Obligations.EncodedWordIsSystematic : Prop :=
  ∀ (s : State) (G : GenMatrix) (H : CheckMatrix) (v : SourceWord), s.Inv → s.coder = some (.ready G H) →
    ∃ e : CodedWord, answer (encOf v) s = some (encodedWord e) ∧
      e.extractLsb' 0 6 = v ∧ e.extractLsb' 6 4 = vmul v (parityBlock G)

/-- Rule R88 (marked derived by the spec): an encoded word has an even number of ones. -/
def Obligations.EncodedWordHasEvenParity : Prop :=
  ∀ (s : State) (G : GenMatrix) (H : CheckMatrix) (v : SourceWord), s.coder = some (.ready G H) →
    ∃ e : CodedWord, answer (encOf v) s = some (encodedWord e) ∧ xorRed e = false ∧ ones e % 2 = 0

/-- Rule R89 (marked derived by the spec): the body of every encoded word is a codeword, decoding the encoded word
returns the source word with status VALID, and the 64 encoded words are pairwise different; no premise on the columns of
`H`. -/
def Obligations.DecodeOfEncodeReturnsSourceWord : Prop :=
  ∀ (s : State) (G : GenMatrix) (H : CheckMatrix), s.Inv → s.coder = some (.ready G H) →
    (∀ v : SourceWord, mvmul H (vmul v G) = 0#4 ∧
      ∃ e : CodedWord, answer (encOf v) s = some (encodedWord e) ∧ answer (decOf e) s = some (validWord v)) ∧
    (∀ v v' : SourceWord, v ≠ v' → answer (encOf v) s ≠ answer (encOf v') s)

/-- Section of 42_encode.md on corner cases, (b): encoding is linear, the parity bit included. -/
def Obligations.EncodingIsLinear : Prop :=
  ∀ (s : State) (G : GenMatrix) (H : CheckMatrix) (v v' : SourceWord), s.coder = some (.ready G H) →
    ∃ e e' : CodedWord, answer (encOf v) s = some (encodedWord e) ∧ answer (encOf v') s = some (encodedWord e') ∧
      answer (encOf (v ^^^ v')) s = some (encodedWord (e ^^^ e'))

/-- Corner case (g) of 42_encode.md: under the premise that the columns of `H` are distinct and non-zero, two different
codewords differ in at least 3 of their 10 positions, and two different encoded words in at least 4 of their 11. -/
def Obligations.MinimumDistanceOfTheCode : Prop :=
  ∀ (s : State) (G : GenMatrix) (H : CheckMatrix), s.Inv → s.coder = some (.ready G H) → columnsDistinct H = true →
    ∀ v v' : SourceWord, v ≠ v' →
      3 ≤ ones (vmul v G ^^^ vmul v' G) ∧
      ∃ e e' : CodedWord, answer (encOf v) s = some (encodedWord e) ∧ answer (encOf v') s = some (encodedWord e') ∧
        4 ≤ ones (e ^^^ e')

/-- Rule R27 (marked derived by the spec): row `j` of `G` is the first ten bits of the ENCODE of the unit sequence
`e_j`. -/
def Obligations.UnitEncodingsRecoverGenerator : Prop :=
  ∀ (s : State) (G : GenMatrix) (H : CheckMatrix) (j : Fin 6), s.coder = some (.ready G H) →
    ∃ e : CodedWord, answer (encOf (BitVec.ofFnLE fun i => decide (i = j))) s = some (encodedWord e) ∧
      e.extractLsb' 0 10 = G[j]

/-! ### DECODE and IDLE -/

/-- Rules R96, R99 to R104, bit by bit: in READY, DECODE of an operand of length 11 completes and changes nothing but
the output word; `syn` is the syndrome of its first ten lanes. A zero syndrome answers VALID with the first six lanes; a
non-zero one equal to a column of `H` answers CORRECTED with bit `p` of the body inverted, `p` the least such column;
any other answers UNCORRECTABLE with no payload. Its encoding is `IN[21:19] = 0b011`, then `len`, then `data`. -/
def Obligations.DecodeClassifiesSyndrome : Prop :=
  ∀ (s : State) (G : GenMatrix) (H : CheckMatrix) (data : BitVec 15) (syn : BitVec 4), s.coder = some (.ready G H) →
    (∀ t : Fin 4, syn[t] = xorList [data[0] && H.bit t 0, data[1] && H.bit t 1, data[2] && H.bit t 2,
      data[3] && H.bit t 3, data[4] && H.bit t 4, data[5] && H.bit t 5, data[6] && H.bit t 6, data[7] && H.bit t 7,
      data[8] && H.bit t 8, data[9] && H.bit t 9]) →
    (syn = 0#4 →
      exec (.decode 11#4 data) s = .next { s with out := some (0x11800#18 + (data.setWidth 6).setWidth 18) }) ∧
    (∀ p : Fin 10, syn ≠ 0#4 → (∀ t : Fin 4, H.bit t p = syn[t]) → (∀ q < p, ∃ t : Fin 4, H.bit t q ≠ syn[t]) →
      ∃ pay : SourceWord, (∀ j : Fin 6, pay[j] = (data[j.val] ^^ decide (j.val = p.val))) ∧
        exec (.decode 11#4 data) s = .next { s with out := some (0x12800#18 + pay.setWidth 18) }) ∧
    (syn ≠ 0#4 → (∀ p : Fin 10, ∃ t : Fin 4, H.bit t p ≠ syn[t]) →
      exec (.decode 11#4 data) s = .next { s with out := some 0x13000#18 }) ∧
    decode (.cmd (0b011#3 ++ 11#4 ++ data)) = .ok (.decode 11#4 data)

/-- Rule R98 (marked derived by the spec): the syndrome of a corrupted codeword is that of the error pattern; a single
error gives its column, two errors the XOR of their columns. -/
def Obligations.SyndromeOfCorruptedCodeword : Prop :=
  ∀ (H : CheckMatrix) (c : Body), mvmul H c = 0#4 →
    (∀ d : Body, syndrome H (c ^^^ d) = syndrome H d) ∧
    (∀ p : Fin 10, syndrome H (c ^^^ unitBody p) = col H p) ∧
    (∀ a b : Fin 10, a ≠ b → syndrome H (c ^^^ (unitBody a ^^^ unitBody b)) = col H a ^^^ col H b)

/-- Rule R102, last sentences (marked derived by the spec): when the classifier answers an index, it is the index of a
column equal to the syndrome, and the corrected body is a codeword; at an index above 5 the payload is that of the
received body. -/
def Obligations.CorrectedBodyIsCodeword : Prop :=
  ∀ (H : CheckMatrix) (body : Body) (p : Fin 10), classify H (syndrome H body) = .corrected p →
    col H p = syndrome H body ∧ syndrome H (flipBit body p) = 0#4 ∧
    (6 ≤ p.val → payloadOf (flipBit body p) = payloadOf body) ∧
    (∀ q : Fin 10, (flipBit body p)[q] = (body[q] ^^ decide (q = p)))

/-- The equivalences of section 4 of 43_decode.md and corner case (f): the syndrome is all zero if and only if the
status is VALID, and the payload is absent exactly when the status is UNCORRECTABLE; as the output word shows them. -/
def Obligations.ZeroSyndromeExactlyWhenValid : Prop :=
  ∀ (s : State) (G : GenMatrix) (H : CheckMatrix) (rw : CodedWord), s.coder = some (.ready G H) →
    ∃ o, answer (decOf rw) s = some o ∧
      (OutWord.status o = 1#2 ↔ syndrome H (rw.extractLsb' 0 10) = 0#4) ∧
      (OutWord.payload o = none ↔ OutWord.status o = 3#2) ∧ OutWord.status o ≠ 0#2 ∧ OutWord.err o = 0#2

/-- Rule R107: for every body, the overall parity bit has no effect on the payload or the status. -/
def Obligations.OverallParityBitHasNoEffect : Prop :=
  ∀ (s : State) (G : GenMatrix) (H : CheckMatrix) (body : Body), s.coder = some (.ready G H) →
    exec (decOf (BitVec.cons false body)) s = exec (decOf (BitVec.cons true body)) s ∧
    ∃ o, answer (decOf (BitVec.cons false body)) s = some o

/-- Rule R109 (marked derived by the spec): flipping bit 10 of an encoded word and decoding gives the source word with
status VALID. -/
def Obligations.ParityBitErrorIsInvisible : Prop :=
  ∀ (s : State) (G : GenMatrix) (H : CheckMatrix) (v : SourceWord), s.Inv → s.coder = some (.ready G H) →
    ∃ e : CodedWord, answer (encOf v) s = some (encodedWord e) ∧
      answer (decOf (e ^^^ 0b10000000000#11)) s = some (validWord v)

/-- Rule R108 (marked derived by the spec): with `WF_COL`, flipping any one of the ten body bits of an encoded word and
decoding gives the source word with status CORRECTED, and the classifier's index is that bit. Without that premise: at a
zero column below 6 the answer is VALID with that bit flipped, and of two equal non-zero columns the higher is corrected
at an index no higher than the lower. The clause on equal columns rests on the least index of rule R100, which the
source leaves open (log entry 7). -/
def Obligations.SingleBodyErrorIsCorrected : Prop :=
  ∀ (s : State) (G : GenMatrix) (H : CheckMatrix) (v : SourceWord), s.Inv → s.coder = some (.ready G H) →
    ∃ e : CodedWord, answer (encOf v) s = some (encodedWord e) ∧
      (wfCol s.cfg = true → ∀ p : Fin 10,
        answer (decOf (e ^^^ (unitBody p).setWidth 11)) s = some (correctedWord v) ∧
        classify H (syndrome H (bodyOf (e ^^^ (unitBody p).setWidth 11))) = .corrected p) ∧
      (∀ p : Fin 10, p.val < 6 → col H p = 0#4 →
        answer (decOf (e ^^^ (unitBody p).setWidth 11)) s = some (validWord (v ^^^ (unitBody p).setWidth 6))) ∧
      (∀ q p : Fin 10, q < p → col H q = col H p → col H p ≠ 0#4 → ∃ r : Fin 10, r ≤ q ∧ col H r = col H p ∧
        answer (decOf (e ^^^ (unitBody p).setWidth 11)) s =
          some (correctedWord (v ^^^ (unitBody p).setWidth 6 ^^^ (unitBody r).setWidth 6)))

/-- Section 5 of 43_decode.md, (a): with `WF_COL`, two errors at body positions `a ≠ b` are never VALID: CORRECTED at a
third index when the XOR of their columns is a column, else UNCORRECTABLE. -/
def Obligations.DoubleBodyErrorIsNeverValid : Prop :=
  ∀ (s : State) (G : GenMatrix) (H : CheckMatrix), s.Inv → s.coder = some (.ready G H) → wfCol s.cfg = true →
    ∀ (v : SourceWord) (a b : Fin 10), a ≠ b →
      ∃ e : CodedWord, answer (encOf v) s = some (encodedWord e) ∧
        ((∃ p, p ≠ a ∧ p ≠ b ∧ col H p = col H a ^^^ col H b ∧
            answer (decOf (e ^^^ (unitBody a ^^^ unitBody b).setWidth 11)) s =
              some (correctedWord (payloadOf (vmul v G ^^^ unitBody a ^^^ unitBody b ^^^ unitBody p)))) ∨
          ((∀ p, col H p ≠ col H a ^^^ col H b) ∧
            answer (decOf (e ^^^ (unitBody a ^^^ unitBody b).setWidth 11)) s = some uncorrectableWord))

/-- Rule R20, its count: when the ten columns of `H` are pairwise distinct and non-zero, each is located by its own
syndrome, and exactly five of the fifteen non-zero syndromes are matched by no column. -/
def Obligations.ExactlyFiveSyndromesAreUncorrectable : Prop :=
  ∀ H : CheckMatrix, columnsDistinct H = true →
    (∀ p : Fin 10, classify H (col H p) = .corrected p) ∧
    ((List.range 16).countP fun n => classify H (BitVec.ofNat 4 n) = .uncorrectable) = 5

/-- Rule R112: IDLE, whose encoding is `IN[21:20] = 0b00`, leaves the state unchanged and shows `fault` and nothing
else. -/
def Obligations.IdleShowsFaultOnly : Prop :=
  ∀ s : State,
    (∀ G H, s.coder = some (.ready G H) → exec .idle s = .next { s with out := some 0x00000#18 }) ∧
    (s.coder = some .fault → exec .idle s = .next { s with out := some 0x20000#18 }) ∧
    ∀ w : InWord, w[21] = false → w[20] = false → decode (.cmd w) = .ok .idle

/-! ### The whole machine -/

/-- Rules R25 and R128: from READY and FAULT every input word gives a next state; before the first reset exactly the words
with `IN[21] = 1` do, and every other is refused; no step ever ends in a model fault. -/
def Obligations.StepIsTotalAfterReset : Prop :=
  (∀ (s : State) (w : InWord) (rest : List InWord) (c : Coder), s.inputs = w :: rest → s.coder = some c →
    ∃ t, step s = .next t) ∧
  (∀ (s : State) (w : InWord) (rest : List InWord), s.inputs = w :: rest → s.coder = none →
    (w[21] = true → ∃ t, step s = .next t) ∧ (w[21] = false → step s = .refused .beforeReset)) ∧
  (∀ (s : State) (r : Fault), step s ≠ .fault r)

/-- Rules R15, R122 and R129, and the constants of rule R10: no instruction but CONSTRUCT changes `(phase, G, H)`, none
changes the constants or the waiting words, none but ROWXOR and CONSTRUCT touches the working matrix, and ROWXOR gives no
output word. -/
def Obligations.OnlyConstructWritesTheMatrices : Prop :=
  ∀ (i : Instr) (s t : State), exec i s = .next t →
    t.cfg = s.cfg ∧ t.inputs = s.inputs ∧ (i ≠ .construct → t.coder = s.coder) ∧
    (i = .idle ∨ (∃ len data, i = .encode len data) ∨ (∃ len data, i = .decode len data) →
      t = { s with out := t.out }) ∧
    (∀ src tgt, i = .rowxor src tgt → t = { s with conv := t.conv })

/-- Rules R45 and R46: every step gives an output word; its fields are those of one line of the table, and its `fault`
bit is `phase` after the step. -/
def Obligations.EveryOutputWordIsListed : Prop :=
  ∀ s t : State, step s = .next t →
    ∃ o, t.out = some o ∧ OutWord.listed o ∧ (OutWord.fault o = true ↔ t.coder = some .fault)

/-- The state after reset, and the block before its first reset, meet the invariant. -/
def Obligations.ResetMeetsInvariant : Prop := State.reset.Inv ∧ ∀ cfg, (State.preReset cfg).Inv

/-- The invariant is kept by every step, from every state that meets it. -/
def Obligations.EveryStepKeepsInvariant : Prop :=
  ∀ s t : State, s.Inv → step s = .next t → t.Inv

/-- Rules R118 and R79 (g) (the latter marked derived by the spec): FAULT is permanent for given constants: from a state
that meets the invariant, every step stays in FAULT and shows `fault = 1`. -/
def Obligations.FaultPhaseIsPermanent : Prop :=
  ∀ s t : State, s.Inv → s.coder = some .fault → step s = .next t →
    t.coder = some .fault ∧ t.cfg = s.cfg ∧ ∃ o, t.out = some o ∧ OutWord.fault o = true

/-- Rule R40: the output word and the next `(phase, G, H)` are functions of the constants, of `(phase, G, H)` before the
step and of the input word of the step only: neither the earlier output
word nor the words still waiting have an effect. -/
def Obligations.OutputDependsOnStateAndInputOnly : Prop :=
  ∀ (s s' t : State) (w : InWord) (rest rest' : List InWord),
    s.cfg = s'.cfg → s.coder = s'.coder → s.inputs = w :: rest → s'.inputs = w :: rest' → step s = .next t →
    ∃ t', step s' = .next t' ∧ t'.coder = t.coder ∧ t'.out = t.out

/-- Rules R35, R36 and R143: once the block has been reset, the output words of a run are, word by word, those the block
gives to each word alone, whatever the order and whatever other words (resets too) come before; and no word changes
`(phase, G, H)` or the constants. -/
def Obligations.RunOutputsAreWordByWord : Prop :=
  ∀ (s : State) (c : Coder) (ws : List InWord), s.Inv → s.coder = some c →
    ∃ t os, runWords s ws = some (t, os) ∧ os.map some = ws.map (stepOut s) ∧ t.coder = s.coder ∧ t.cfg = s.cfg

/-- Rules R40 and R146: a run, from the block before its first reset and with a first word that is a reset, gives one
output word per input word, each listed by the spec, and ends with the `(phase, G, H)` its constants give. -/
def Obligations.RunFromFirstResetAnswersEveryWord : Prop :=
  ∀ (cfg : Config) (w : InWord) (ws : List InWord), w[21] = true →
    ∃ t os, runWords (State.preReset cfg) (w :: ws) = some (t, os) ∧ os.length = ws.length + 1 ∧
      t.coder = some (constructCoder cfg) ∧ ∀ o ∈ os, OutWord.listed o

/-- Section 6 of 60_exceptions.md (rule R128, last sentence), with sections 1 and 2 (rules R117, R118 and R120: when an
error is reported): with well-formed constants, a run of resets, idle steps, ENCODEs of length 6 and DECODEs of length
11 is one in which nothing goes wrong: `fault = 0` and `err = 0` on every output word. -/
def Obligations.WellUsedRunIsClean : Prop :=
  ∀ (cfg : Config) (w : InWord) (ws : List InWord), w[21] = true → wfSys cfg = true →
    (∀ u ∈ ws, (∀ len data, decodeCmd u = .encode len data → len = 6#4) ∧
      (∀ len data, decodeCmd u = .decode len data → len = 11#4)) →
    ∃ t os, runWords (State.preReset cfg) (w :: ws) = some (t, os) ∧ cleanOutputs os

/-- The host's runs are these runs: the machine behind the host's interface, with the words waiting in its queue,
reaches the state the run reaches. -/
def Obligations.CoreRunFollowsTheInputWords : Prop :=
  ∀ (s t : State) (ws rest : List InWord) (os : List OutWord), runWords s ws = some (t, os) →
    core.run ws.length { s with inputs := ws ++ rest } = .next { t with inputs := rest }

/-! ### The reference instance -/

/-- Rule R82: the reference instance REF, the spec's own choice for vectors and examples and no fact about the block as built.
Its seed has the rows of the table and its list the sixteen pairs in execution order; it satisfies `WF_SYS` and `WF_COL`; from
every state of a block built with it CONSTRUCT ends in READY with `G_REF` and `H_REF` and an all-zero output word; the rows of
`P`, the columns of `H` and the five syndromes that match no column are the ones listed. A row or column `(b0,b1,...)` of the
rule is written with `b0` as its lowest bit. -/
def Obligations.ReferenceInstanceIsReady : Prop :=
  refConfig.seed = #v[0b0010000111#10, 0b0010010010#10, 0b0000101001#10, 0b0011001000#10, 0b0110001011#10, 0b1010001001#10] ∧
  refConfig.ops = [(0, 2), (0, 4), (0, 5), (1, 0), (1, 2), (1, 5), (2, 0), (2, 4), (2, 5), (3, 0), (3, 2), (4, 1), (4, 2),
    (5, 0), (5, 1), (5, 4)].map (fun p : Nat × Nat => BitVec.ofNat 6 (8 * p.1 + p.2)) ∧
  wfSys refConfig = true ∧ wfCol refConfig = true ∧
  gRef = #v[0b1001000001#10, 0b1100000010#10, 0b0111000100#10, 0b0011001000#10, 0b1110010000#10, 0b1010100000#10] ∧
  hRef = #v[0b0001001101#10, 0b0010111100#10, 0b0100010110#10, 0b1000110011#10] ∧
  (∀ s : State, s.cfg = refConfig →
    exec .construct s = .next { s with coder := some (.ready gRef hRef), conv := .idle, out := some 0x00000#18 }) ∧
  parityBlock gRef = #v[0b1001#4, 0b1100#4, 0b0111#4, 0b0011#4, 0b1110#4, 0b1010#4] ∧
  columnIndices.map (col hRef) = [9#4, 12#4, 7#4, 3#4, 14#4, 10#4, 1#4, 2#4, 4#4, 8#4] ∧
  (∀ syn : BitVec 4, classify hRef syn = .uncorrectable ↔ syn ∈ [6#4, 5#4, 13#4, 11#4, 15#4])
end

