-- ==== Sys2Proof/Laws/Gf2.lean ====
section
/-! SUPPORT. The elements of the products, and how the XOR of a sequence behaves (rules R60 to R64). -/

namespace Sys2Proof.Machine

@[simp] theorem xorUpTo_zero (f : Nat → Bool) : xorUpTo f 0 = false := rfl

theorem xorUpTo_succ (f : Nat → Bool) (m : Nat) : xorUpTo f (m + 1) = (xorUpTo f m ^^ f m) := rfl

/-- Only the first `m` terms count. -/
theorem xorUpTo_congr {f g : Nat → Bool} {m : Nat} (h : ∀ i < m, f i = g i) : xorUpTo f m = xorUpTo g m := by
  induction m with
  | zero => rfl
  | succ m ih => rw [xorUpTo_succ, xorUpTo_succ, ih fun i hi => h i (by omega), h m (by omega)]

theorem xorUpTo_false (m : Nat) : xorUpTo (fun _ => false) m = false := by
  induction m with
  | zero => rfl
  | succ m ih => simp [xorUpTo_succ, ih]

theorem xorUpTo_xor (f g : Nat → Bool) (m : Nat) :
    xorUpTo (fun i => f i ^^ g i) m = (xorUpTo f m ^^ xorUpTo g m) := by
  induction m with
  | zero => rfl
  | succ m ih => simp only [xorUpTo_succ, ih]; cases f m <;> cases g m <;> simp

/-- A sum with one non-zero term is that term. -/
theorem xorUpTo_single (f : Nat → Bool) (p m : Nat) (hp : p < m) (h : ∀ i < m, i ≠ p → f i = false) :
    xorUpTo f m = f p := by
  induction m with
  | zero => omega
  | succ m ih =>
    rw [xorUpTo_succ]
    by_cases hm : p = m
    · subst hm
      rw [xorUpTo_congr (g := fun _ => false) fun i hi => h i (by omega) (by omega), xorUpTo_false, Bool.false_xor]
    · rw [ih (by omega) fun i hi hne => h i (by omega) hne, h m (by omega) (Ne.symm hm), Bool.xor_false]

theorem dot_eq {m : Nat} (u v : BitVec m) : dot u v = xorUpTo (fun i => u.getLsbD i && v.getLsbD i) m := by
  exact xorUpTo_congr fun i _ => BitVec.getLsbD_and

theorem dot_comm {m : Nat} (u v : BitVec m) : dot u v = dot v u := by
  simp only [dot, BitVec.and_comm]

theorem dot_xor_left {m : Nat} (u u' v : BitVec m) : dot (u ^^^ u') v = (dot u v ^^ dot u' v) := by
  rw [dot_eq, dot_eq, dot_eq, ← xorUpTo_xor]
  refine xorUpTo_congr fun i _ => ?_
  rw [BitVec.getLsbD_xor]
  cases u.getLsbD i <;> cases u'.getLsbD i <;> cases v.getLsbD i <;> rfl

theorem dot_xor_right {m : Nat} (u v v' : BitVec m) : dot u (v ^^^ v') = (dot u v ^^ dot u v') := by
  rw [dot_comm, dot_xor_left, dot_comm v, dot_comm v']

@[simp] theorem dot_zero_left {m : Nat} (v : BitVec m) : dot 0#m v = false := by
  simp [dot_eq, xorUpTo_false]

@[simp] theorem dot_zero_right {m : Nat} (v : BitVec m) : dot v 0#m = false := by
  rw [dot_comm, dot_zero_left]

/-- The dot product with a unit sequence is one element. -/
theorem dot_unit {m : Nat} (p : Fin m) (v : BitVec m) :
    dot (BitVec.ofFnLE fun j => decide (j = p)) v = v[p] := by
  rw [dot_eq, xorUpTo_single _ p.val m p.isLt]
  · simp
  · intro i hi hne
    have : (⟨i, hi⟩ : Fin m) ≠ p := fun h => hne (congrArg Fin.val h)
    simp [hi, this]

@[simp] theorem getElem_col {a b : Nat} (M : BMat a b) (i : Fin b) (t : Nat) (h : t < a) :
    (col M i)[t] = M.bit ⟨t, h⟩ i := by
  simp [col]

@[simp] theorem getElem_vmul {a b : Nat} (s : BitVec a) (M : BMat a b) (i : Nat) (h : i < b) :
    (vmul s M)[i] = dot s (col M ⟨i, h⟩) := by
  simp [vmul]

@[simp] theorem getElem_mvmul {a m : Nat} (M : BMat a m) (v : BitVec m) (t : Nat) (h : t < a) :
    (mvmul M v)[t] = dot M[t] v := by
  simp [mvmul]

/-- A column and a row meet in one element. -/
theorem getLsbD_col {a b : Nat} (M : BMat a b) (i : Fin b) (t : Fin a) : (col M i).getLsbD t.val = M.bit t i := by
  rw [BitVec.getLsbD_eq_getElem t.isLt, getElem_col]

end Sys2Proof.Machine
end

