-- ==== Sys2Proof/Laws/State.lean ====
section
/-! SUPPORT. What each update of the state leaves: one lemma per field per shared operation, so that no proof unfolds a
record update. -/

namespace Sys2Proof.Machine

@[simp] theorem State.respond_cfg (s : State) (r : Response) : (s.respond r).cfg = s.cfg := rfl
@[simp] theorem State.respond_coder (s : State) (r : Response) : (s.respond r).coder = s.coder := rfl
@[simp] theorem State.respond_conv (s : State) (r : Response) : (s.respond r).conv = s.conv := rfl
@[simp] theorem State.respond_inputs (s : State) (r : Response) : (s.respond r).inputs = s.inputs := rfl
@[simp] theorem State.respond_out (s : State) (r : Response) : (s.respond r).out = some (r.render s.phase) := rfl
@[simp] theorem State.respond_phase (s : State) (r : Response) : (s.respond r).phase = s.phase := rfl

@[simp] theorem State.openConverter_cfg (s : State) : s.openConverter.cfg = s.cfg := rfl
@[simp] theorem State.openConverter_coder (s : State) : s.openConverter.coder = s.coder := rfl
@[simp] theorem State.openConverter_conv (s : State) : s.openConverter.conv = .working s.cfg.seed := rfl
@[simp] theorem State.openConverter_inputs (s : State) : s.openConverter.inputs = s.inputs := rfl
@[simp] theorem State.openConverter_out (s : State) : s.openConverter.out = s.out := rfl

@[simp] theorem State.closeConverter_cfg (s : State) : s.closeConverter.cfg = s.cfg := rfl
@[simp] theorem State.closeConverter_coder (s : State) : s.closeConverter.coder = some (coderOf s.conv.result) := rfl
@[simp] theorem State.closeConverter_conv (s : State) : s.closeConverter.conv = .idle := rfl
@[simp] theorem State.closeConverter_inputs (s : State) : s.closeConverter.inputs = s.inputs := rfl
@[simp] theorem State.closeConverter_out (s : State) : s.closeConverter.out = s.out := rfl

/-- The phase of a block that has been reset. -/
theorem State.phase_of_coder (s : State) (c : Coder) (h : s.coder = some c) : s.phase = c.phase := by
  simp [State.phase, h]

@[simp] theorem Coder.phase_ready (G : GenMatrix) (H : CheckMatrix) : (Coder.ready G H).phase = false := rfl
@[simp] theorem Coder.phase_fault : Coder.fault.phase = true := rfl

end Sys2Proof.Machine
end

