-- ==== Sys2Proof/Laws/Ops.lean ====
section
/-! SUPPORT. Everything each shared operation and each meaning can do, said once: the provers cite these instead of
unfolding the definitions. -/

namespace Sys2Proof.Machine

/-! ### The matrices -/

/-- ROWXOR on rows that exist (rule R70). -/
theorem rowXor_inRange (M : GenMatrix) (src tgt : RowIndex) (hs : src.toNat < 6) (ht : tgt.toNat < 6) :
    rowXor M src tgt = some (M.set tgt.toNat (M[tgt.toNat] ^^^ M[src.toNat])) := by
  simp [rowXor, hs, ht]

/-- ROWXOR gives no matrix exactly where an index names no row (rule R72). -/
theorem rowXor_eq_none (M : GenMatrix) (src tgt : RowIndex) :
    rowXor M src tgt = none ↔ ¬ (src.toNat < 6 ∧ tgt.toNat < 6) := by
  unfold rowXor; split <;> simp_all

theorem sysChk_iff (M : GenMatrix) :
    sysChk M = true ↔ ∀ j i : Fin 6, M.bit j (Fin.castLE (by omega) i) = decide (i = j) := by
  simp [sysChk]

theorem columnsDistinct_iff (H : CheckMatrix) :
    columnsDistinct H = true ↔ (∀ p q : Fin 10, p ≠ q → col H p ≠ col H q) ∧ ∀ p : Fin 10, col H p ≠ 0#4 := by
  simp [columnsDistinct]

theorem wfSys_iff (cfg : Config) : wfSys cfg = true ↔ ∃ M, convert cfg.seed cfg.ops = some M ∧ sysChk M = true := by
  unfold wfSys; split <;> simp_all

/-- A coder that a construction leaves in READY (rule R78). -/
theorem coderOf_ready {r : Option GenMatrix} {G : GenMatrix} {H : CheckMatrix} (h : coderOf r = .ready G H) :
    r = some G ∧ sysChk G = true ∧ H = pcDerive G := by
  unfold coderOf at h
  split at h
  · cases h
  · split at h
    · cases h; exact ⟨rfl, ‹_›, rfl⟩
    · cases h

/-! ### The converter -/

/-- One entry on a working matrix (rules R70 and R72). -/
theorem State.convertEntry_working (s : State) (M : GenMatrix) (src tgt : RowIndex) (h : s.conv = .working M) :
    s.convertEntry src tgt =
      { s with conv := match rowXor M src tgt with | some M' => .working M' | none => .inconsistent } := by
  cases hr : rowXor M src tgt <;> simp only [State.convertEntry, h, hr]

/-- A conversion that has failed stays failed (rule R72: `return Inconsistent`). -/
theorem State.convertAll_inconsistent (s : State) (es : List OpEntry) (h : s.conv = .inconsistent) :
    s.convertAll es = s := by
  induction es with
  | nil => rfl
  | cons e es ih => simp only [State.convertAll, State.convertEntry, h, ih]

/-- The whole pass is CONVERT, and touches nothing but the converter (rule R72). -/
theorem State.convertAll_working (s : State) (M : GenMatrix) (es : List OpEntry) (h : s.conv = .working M) :
    s.convertAll es =
      { s with conv := match convert M es with | some M' => .working M' | none => .inconsistent } := by
  induction es generalizing s M with
  | nil => simp only [State.convertAll, convert, ← h]
  | cons e es ih =>
    rw [State.convertAll, State.convertEntry_working s M _ _ h, convert]
    cases hr : rowXor M (OpEntry.src e) (OpEntry.tgt e) with
    | none => rw [State.convertAll_inconsistent _ _ rfl]
    | some M' => rw [ih _ M' rfl]

/-! ### The meanings -/

/-- CONSTRUCT, from any state: the constants decide `(phase, G, H)` and the `fault` bit (rules R24 and R78). -/
theorem execConstruct_eq (s : State) :
    execConstruct s = .next { s with
      coder := some (constructCoder s.cfg), conv := .idle,
      out := some (Response.silent.render (constructCoder s.cfg).phase) } := by
  have hr : (s.openConverter.convertAll s.cfg.ops).conv.result = convert s.cfg.seed s.cfg.ops := by
    rw [State.convertAll_working _ _ _ (State.openConverter_conv s)]
    cases convert s.cfg.seed s.cfg.ops <;> rfl
  unfold execConstruct State.respond State.closeConverter
  rw [State.phase_of_coder _ _ rfl, hr, State.convertAll_working _ _ _ (State.openConverter_conv s)]
  rfl

/-- A call or an idle step of a block that has been reset changes the output word only (rules R15 and R122). -/
theorem execEncode_of_coder (s : State) (c : Coder) (len : BitVec 4) (data : BitVec 15) (h : s.coder = some c) :
    execEncode len data s = .next { s with out := some ((encodeCall c (operand len data)).render c.phase) } := by
  simp only [execEncode, h, State.respond, State.phase]

theorem execDecode_of_coder (s : State) (c : Coder) (len : BitVec 4) (data : BitVec 15) (h : s.coder = some c) :
    execDecode len data s = .next { s with out := some ((decodeCall c (operand len data)).render c.phase) } := by
  simp only [execDecode, h, State.respond, State.phase]

theorem execIdle_of_coder (s : State) (c : Coder) (h : s.coder = some c) :
    execIdle s = .next { s with out := some (Response.silent.render c.phase) } := by
  simp only [execIdle, h, State.respond, State.phase]

/-- Before the first reset calls and idle steps are refused (rule R25). -/
theorem execEncode_of_none (s : State) (len : BitVec 4) (data : BitVec 15) (h : s.coder = none) :
    execEncode len data s = .refused .beforeReset := by
  simp only [execEncode, h]

theorem execDecode_of_none (s : State) (len : BitVec 4) (data : BitVec 15) (h : s.coder = none) :
    execDecode len data s = .refused .beforeReset := by
  simp only [execDecode, h]

theorem execIdle_of_none (s : State) (h : s.coder = none) : execIdle s = .refused .beforeReset := by
  simp only [execIdle, h]

/-- ROWXOR on the working matrix of the conversion under way (rules R70 and R72). -/
theorem execRowxor_working (s : State) (M : GenMatrix) (src tgt : RowIndex) (h : s.conv = .working M) :
    execRowxor src tgt s = .next
      { s with conv := match rowXor M src tgt with | some M' => .working M' | none => .inconsistent } := by
  unfold execRowxor; rw [← State.convertEntry_working s M src tgt h, h]

theorem execRowxor_refused (s : State) (src tgt : RowIndex) (h : ∀ M, s.conv ≠ .working M) :
    execRowxor src tgt s = .refused .noConversion := by
  unfold execRowxor; split
  · exact absurd ‹_› (h _)
  · rfl

/-- The checks of a call, as cases (rules R85, R95, R120). -/
theorem checkedCall_cases (c : Coder) (n : Nat) (seq : Operand) (f : GenMatrix → CheckMatrix → Response) :
    (c = .fault ∧ checkedCall c n seq f = .rejected .configFault) ∨
    (∃ G H, c = .ready G H ∧ seq.len ≠ n ∧ checkedCall c n seq f = .rejected .invalidLength) ∨
    (∃ G H, c = .ready G H ∧ seq.len = n ∧ checkedCall c n seq f = f G H) := by
  cases c with
  | fault => exact .inl ⟨rfl, rfl⟩
  | ready G H =>
    by_cases h : seq.len = n
    · exact .inr (.inr ⟨G, H, rfl, h, by simp [checkedCall, h]⟩)
    · exact .inr (.inl ⟨G, H, rfl, h, by simp [checkedCall, h, raise]⟩)

/-- Everything an instruction can do when it gives a next state. -/
theorem exec_next_cases {i : Instr} {s t : State} (h : exec i s = .next t) :
    (i = .construct ∧ t = { s with
      coder := some (constructCoder s.cfg), conv := .idle,
      out := some (Response.silent.render (constructCoder s.cfg).phase) }) ∨
    (∃ c, s.coder = some c ∧ i = .idle ∧ t = { s with out := some (Response.silent.render c.phase) }) ∨
    (∃ c len data, s.coder = some c ∧ i = .encode len data ∧
      t = { s with out := some ((encodeCall c (operand len data)).render c.phase) }) ∨
    (∃ c len data, s.coder = some c ∧ i = .decode len data ∧
      t = { s with out := some ((decodeCall c (operand len data)).render c.phase) }) ∨
    (∃ M src tgt, s.conv = .working M ∧ i = .rowxor src tgt ∧
      t = { s with conv := match rowXor M src tgt with | some M' => .working M' | none => .inconsistent }) := by
  cases i with
  | construct =>
    rw [exec, execConstruct_eq] at h
    cases h; exact .inl ⟨rfl, rfl⟩
  | idle =>
    rw [exec] at h
    obtain hc | ⟨c, hc⟩ := Option.eq_none_or_eq_some s.coder
    · rw [execIdle_of_none s hc] at h; cases h
    · rw [execIdle_of_coder s c hc] at h; cases h; exact .inr (.inl ⟨c, hc, rfl, rfl⟩)
  | encode len data =>
    rw [exec] at h
    obtain hc | ⟨c, hc⟩ := Option.eq_none_or_eq_some s.coder
    · rw [execEncode_of_none s _ _ hc] at h; cases h
    · rw [execEncode_of_coder s c _ _ hc] at h; cases h
      exact .inr (.inr (.inl ⟨c, len, data, hc, rfl, rfl⟩))
  | decode len data =>
    rw [exec] at h
    obtain hc | ⟨c, hc⟩ := Option.eq_none_or_eq_some s.coder
    · rw [execDecode_of_none s _ _ hc] at h; cases h
    · rw [execDecode_of_coder s c _ _ hc] at h; cases h
      exact .inr (.inr (.inr (.inl ⟨c, len, data, hc, rfl, rfl⟩)))
  | rowxor src tgt =>
    rw [exec] at h
    cases hc : s.conv with
    | working M =>
      rw [execRowxor_working s M _ _ hc] at h; cases h
      exact .inr (.inr (.inr (.inr ⟨M, src, tgt, rfl, rfl, rfl⟩)))
    | idle => rw [execRowxor_refused s _ _ (by simp [hc])] at h; cases h
    | inconsistent => rw [execRowxor_refused s _ _ (by simp [hc])] at h; cases h

/-- A step with a word waiting takes it off the queue and runs what it decodes to (rules R40 and R41). -/
theorem step_of_inputs (s : State) (w : InWord) (rest : List InWord) (h : s.inputs = w :: rest) :
    step s = exec (decodeCmd w) { s with inputs := rest } := by
  simp only [step, State.takeInput, h]

theorem step_next_inputs {s t : State} (h : step s = .next t) :
    ∃ w rest, s.inputs = w :: rest ∧ exec (decodeCmd w) { s with inputs := rest } = .next t := by
  cases hi : s.inputs with
  | nil => simp only [step, State.takeInput, hi] at h; cases h
  | cons w rest => exact ⟨w, rest, rfl, by rw [← step_of_inputs s w rest hi, h]⟩

/-- No input word decodes to ROWXOR: no port reaches it (rule R70). -/
theorem decodeCmd_ne_rowxor (w : InWord) (src tgt : RowIndex) : decodeCmd w ≠ .rowxor src tgt := by
  unfold decodeCmd; split
  · simp
  · split
    · simp
    · split <;> simp

end Sys2Proof.Machine
end

