-- ==== Sys2Proof/Laws/Matrix.lean ====
section
/-! SUPPORT. The matrices of a block in READY, unit sequences, and the row space a conversion keeps. -/

namespace Sys2Proof.Machine

/-- The unit sequence with its 1 at index `p`. -/
def unitSeq {m : Nat} (p : Fin m) : BitVec m := BitVec.ofFnLE fun j => decide (j = p)

/-- A unit sequence selects one row (rule R63, corner case). -/
theorem vmul_unitSeq {a b : Nat} (M : BMat a b) (j : Fin a) : vmul (unitSeq j) M = M[j] := by
  ext i hi
  rw [getElem_vmul, unitSeq, dot_unit]
  simp [col]

/-- A unit sequence selects one column (rule R64, corner case). -/
theorem mvmul_unitBody (H : CheckMatrix) (p : Fin 10) : mvmul H (unitBody p) = col H p := by
  ext t ht
  rw [getElem_mvmul, dot_comm, unitBody, dot_unit]
  simp

/-- What the invariant says of the matrices of a block in READY (rules R73, R77, R78). -/
theorem State.Inv.ready {s : State} {G : GenMatrix} {H : CheckMatrix} (hi : s.Inv) (h : s.coder = some (.ready G H)) :
    sysChk G = true ∧ H = pcDerive G :=
  (coderOf_ready (hi.coder_built _ h).symm).2

/-- Every sum of rows of `M` is a sum of rows of `N`. -/
def SpanIn (M N : GenMatrix) : Prop := ∀ v : SourceWord, ∃ u : SourceWord, vmul v M = vmul u N

theorem SpanIn.refl (M : GenMatrix) : SpanIn M M := fun v => ⟨v, rfl⟩

theorem SpanIn.trans {M N K : GenMatrix} (h : SpanIn M N) (h' : SpanIn N K) : SpanIn M K := by
  intro v
  obtain ⟨u, hu⟩ := h v
  obtain ⟨w, hw⟩ := h' u
  exact ⟨w, hu.trans hw⟩

/-- ROWXOR adds no sum of rows (rule R70). -/
theorem spanIn_rowXor {M M' : GenMatrix} {src tgt : RowIndex} (h : rowXor M src tgt = some M') : SpanIn M' M := by
  have h6 : src.toNat < 6 ∧ tgt.toNat < 6 := by
    by_contra hc
    rw [(rowXor_eq_none M src tgt).2 hc] at h; cases h
  rw [rowXor_inRange _ _ _ h6.1 h6.2] at h
  cases h
  intro v
  refine ⟨v ^^^ (if v[tgt.toNat] then unitSeq ⟨src.toNat, h6.1⟩ else 0#6), ?_⟩
  ext i hi
  rw [getElem_vmul, getElem_vmul, dot_xor_left]
  have hcol : col (M.set tgt.toNat (M[tgt.toNat] ^^^ M[src.toNat])) ⟨i, hi⟩ =
      col M ⟨i, hi⟩ ^^^ (if M[src.toNat][i] then unitSeq ⟨tgt.toNat, h6.2⟩ else 0#6) := by
    ext t ht
    simp only [BitVec.getElem_xor, getElem_col, BMat.bit, Fin.getElem_fin, Vector.getElem_set]
    by_cases e : tgt.toNat = t
    · subst e
      cases hm : M[src.toNat][i] <;> simp [hm, unitSeq]
    · cases hm : M[src.toNat][i] <;> simp [e, unitSeq, Ne.symm e]
  rw [hcol, dot_xor_right]
  congr 1
  have d1 := dot_unit ⟨tgt.toNat, h6.2⟩ v
  have d2 := dot_unit ⟨src.toNat, h6.1⟩ (col M ⟨i, hi⟩)
  simp only [Fin.getElem_fin, getElem_col, BMat.bit] at d1 d2
  cases hm : M[src.toNat][i] <;> cases hv : v[tgt.toNat] <;> simp [unitSeq, dot_comm v, d1, d2, hm, hv]

/-- A conversion adds no sum of rows (rule R72). -/
theorem spanIn_convert {M M' : GenMatrix} {es : List OpEntry} (h : convert M es = some M') : SpanIn M' M := by
  induction es generalizing M with
  | nil => cases h; exact SpanIn.refl _
  | cons e es ih =>
    rw [convert] at h
    split at h
    · exact (ih h).trans (spanIn_rowXor ‹_›)
    · cases h

end Sys2Proof.Machine
end

