-- ==== Sys2Proof/Laws/Words.lean ====
section
/-! SUPPORT. The fields of the two port words (rules R41, R45, R46, R104). -/

namespace Sys2Proof.Machine

/-- The bits of an input word built from its fields (rule R41). -/
theorem getLsbD_cmdWord (r v o : Bool) (len : BitVec 4) (data : BitVec 15) (i : Nat) :
    (cmdWord r v o len data).getLsbD i =
      if i < 15 then data.getLsbD i
      else if i < 19 then len.getLsbD (i - 15)
      else if i = 19 then o else if i = 20 then v else (decide (i = 21) && r) := by
  unfold cmdWord
  erw [BitVec.getLsbD_append, BitVec.getLsbD_append, BitVec.getLsbD_append, BitVec.getLsbD_append]
  simp only [BitVec.getLsbD_ofBool]
  by_cases h1 : i < 15
  · simp [h1]
  by_cases h2 : i < 19
  · simp [h1, h2, show i - 15 < 4 by omega]
  have h3 : ¬ i - 15 < 4 := by omega
  by_cases h4 : i = 19
  · subst h4; simp
  by_cases h5 : i = 20
  · subst h5; simp
  have h6 : ¬ i - 15 - 4 < 1 := by omega
  have h7 : ¬ i - 15 - 4 - 1 < 1 := by omega
  simp only [h1, h2, h3, h4, h5, h6, h7, if_false]
  congr 1
  simp only [decide_eq_decide]
  omega

/-- The bits of an output word built from its fields (rule R45). -/
theorem getLsbD_outWord (f v pv : Bool) (err st : BitVec 2) (data : BitVec 11) (i : Nat) :
    (outWord f v err st pv data).getLsbD i =
      if i < 11 then data.getLsbD i
      else if i = 11 then pv
      else if i < 14 then st.getLsbD (i - 12)
      else if i < 16 then err.getLsbD (i - 14)
      else if i = 16 then v else (decide (i = 17) && f) := by
  unfold outWord
  erw [BitVec.getLsbD_append, BitVec.getLsbD_append, BitVec.getLsbD_append, BitVec.getLsbD_append, BitVec.getLsbD_append]
  simp only [BitVec.getLsbD_ofBool]
  by_cases h1 : i < 11
  · simp [h1]
  by_cases h2 : i = 11
  · subst h2; simp
  have h3 : ¬ i - 11 < 1 := by omega
  by_cases h4 : i < 14
  · simp [h1, h2, h3, h4, show i - 11 - 1 < 2 by omega]; congr 1
  have h5 : ¬ i - 11 - 1 < 2 := by omega
  by_cases h6 : i < 16
  · simp [h1, h2, h3, h4, h5, h6, show i - 11 - 1 - 2 < 2 by omega]; congr 1
  have h7 : ¬ i - 11 - 1 - 2 < 2 := by omega
  by_cases h8 : i = 16
  · subst h8; simp
  have h9 : ¬ i - 11 - 1 - 2 - 2 < 1 := by omega
  simp only [h1, h2, h3, h4, h5, h6, h7, h8, h9, if_false]
  congr 1
  simp only [decide_eq_decide]
  omega

@[simp] theorem fault_outWord (f v pv : Bool) (err st : BitVec 2) (data : BitVec 11) :
    OutWord.fault (outWord f v err st pv data) = f := by
  rw [OutWord.fault, ← BitVec.getLsbD_eq_getElem, getLsbD_outWord]; simp

@[simp] theorem rspValid_outWord (f v pv : Bool) (err st : BitVec 2) (data : BitVec 11) :
    OutWord.rspValid (outWord f v err st pv data) = v := by
  rw [OutWord.rspValid, ← BitVec.getLsbD_eq_getElem, getLsbD_outWord]; simp

@[simp] theorem pv_outWord (f v pv : Bool) (err st : BitVec 2) (data : BitVec 11) :
    OutWord.pv (outWord f v err st pv data) = pv := by
  rw [OutWord.pv, ← BitVec.getLsbD_eq_getElem, getLsbD_outWord]; simp

@[simp] theorem data_outWord (f v pv : Bool) (err st : BitVec 2) (data : BitVec 11) :
    OutWord.data (outWord f v err st pv data) = data := by
  ext i hi
  rw [OutWord.data, BitVec.getElem_extractLsb', getLsbD_outWord]; simp [hi, BitVec.getLsbD_eq_getElem]

@[simp] theorem status_outWord (f v pv : Bool) (err st : BitVec 2) (data : BitVec 11) :
    OutWord.status (outWord f v err st pv data) = st := by
  ext i hi
  rw [OutWord.status, BitVec.getElem_extractLsb', getLsbD_outWord]
  interval_cases i <;> simp [BitVec.getLsbD_eq_getElem]

@[simp] theorem err_outWord (f v pv : Bool) (err st : BitVec 2) (data : BitVec 11) :
    OutWord.err (outWord f v err st pv data) = err := by
  ext i hi
  rw [OutWord.err, BitVec.getElem_extractLsb', getLsbD_outWord]
  interval_cases i <;> simp [BitVec.getLsbD_eq_getElem]

/-- An output word is its six fields (rule R45). -/
theorem outWord_inj {f v pv : Bool} {err st : BitVec 2} {data : BitVec 11} {f' v' pv' : Bool} {err' st' : BitVec 2} {data' : BitVec 11} :
    outWord f v err st pv data = outWord f' v' err' st' pv' data' ↔
      f = f' ∧ v = v' ∧ err = err' ∧ st = st' ∧ pv = pv' ∧ data = data' := by
  constructor
  · intro h
    exact ⟨by simpa using congrArg OutWord.fault h, by simpa using congrArg OutWord.rspValid h,
      by simpa using congrArg OutWord.err h, by simpa using congrArg OutWord.status h, by simpa using congrArg OutWord.pv h,
      by simpa using congrArg OutWord.data h⟩
  · rintro ⟨rfl, rfl, rfl, rfl, rfl, rfl⟩; rfl

/-- The word of CONSTRUCT and IDLE shows `fault` and nothing else (rule R46). -/
theorem silent_render (f : Bool) : Response.silent.render f = if f then 0x20000#18 else 0x00000#18 := by
  revert f; decide

/-- The word of an ENCODE result by its fields (rules R46 and R86). -/
theorem encodedWord_eq (e : CodedWord) : encodedWord e = (Response.encoded e).render false := by
  revert e; decide

/-- The words of the three decode outcomes by their fields (rules R46 and R104). -/
theorem validWord_eq (p : SourceWord) : validWord p = (Response.decoded ⟨some p, .valid⟩).render false := by
  revert p; decide

theorem correctedWord_eq (p : SourceWord) : correctedWord p = (Response.decoded ⟨some p, .corrected⟩).render false := by
  revert p; decide

theorem uncorrectableWord_eq : uncorrectableWord = (Response.decoded ⟨none, .uncorrectable⟩).render false := by
  decide

theorem encodedWord_inj {e e' : CodedWord} : encodedWord e = encodedWord e' ↔ e = e' := by
  rw [encodedWord_eq, encodedWord_eq, Response.render, Response.render, outWord_inj]; simp

end Sys2Proof.Machine
end

