-- ==== Sys2Proof/Laws/Answers.lean ====
section
/-! SUPPORT. What the encoder and the decoder answer, and what the classifier can answer, said once. -/

namespace Sys2Proof.Machine

/-! ### Operands and bodies -/

theorem sourceWord_operand (d : BitVec 15) : (operand 6#4 d).sourceWord = d.setWidth 6 := by
  ext i hi
  simp [operand, Operand.sourceWord]

theorem receivedWord_operand (d : BitVec 15) : (operand 11#4 d).receivedWord = d.setWidth 11 := by
  ext i hi
  simp [operand, Operand.receivedWord]

/-- The body of an encoded word is the product (rule R86). -/
theorem bodyOf_encodeWord (G : GenMatrix) (v : SourceWord) : bodyOf (encodeWord G v) = vmul v G := by
  ext i hi
  simp only [bodyOf, encodeWord, BitVec.getElem_setWidth, BitVec.getLsbD_cons]
  rw [if_neg (by omega), BitVec.getLsbD_eq_getElem]

theorem bodyOf_xor (x y : CodedWord) : bodyOf (x ^^^ y) = bodyOf x ^^^ bodyOf y := by
  ext i hi; simp [bodyOf]

theorem bodyOf_setWidth (d : Body) : bodyOf (d.setWidth 11) = d := by
  ext i hi; simp [bodyOf]

/-! ### Responses -/

/-- Every response shows the phase (rule R45). -/
theorem fault_render (f : Bool) (r : Response) : OutWord.fault (r.render f) = f := by
  rcases r with _ | e | ⟨_ | p, st⟩ | e <;> simp [Response.render]

/-- Everything ENCODE can answer (rules R85, R86, R120). -/
theorem encodeCall_cases (c : Coder) (seq : Operand) :
    (c = .fault ∧ encodeCall c seq = .rejected .configFault) ∨
    (∃ G H, c = .ready G H ∧ seq.len ≠ 6 ∧ encodeCall c seq = .rejected .invalidLength) ∨
    (∃ G H, c = .ready G H ∧ seq.len = 6 ∧ encodeCall c seq = .encoded (encodeWord G seq.sourceWord)) :=
  checkedCall_cases c 6 seq _

/-- Everything DECODE can answer (rules R95, R103, R120). -/
theorem decodeCall_cases (c : Coder) (seq : Operand) :
    (c = .fault ∧ decodeCall c seq = .rejected .configFault) ∨
    (∃ G H, c = .ready G H ∧ seq.len ≠ 11 ∧ decodeCall c seq = .rejected .invalidLength) ∨
    (∃ G H, c = .ready G H ∧ seq.len = 11 ∧ decodeCall c seq = .decoded (decodeWord H seq.receivedWord)) :=
  checkedCall_cases c 11 seq _

/-- ENCODE of the right length in READY (rule R86). -/
theorem exec_encode_ready (s : State) (G : GenMatrix) (H : CheckMatrix) (d : BitVec 15) (h : s.coder = some (.ready G H)) :
    exec (.encode 6#4 d) s = .next { s with out := some (encodedWord (encodeWord G (d.setWidth 6))) } := by
  rw [exec, execEncode_of_coder s _ _ _ h, encodedWord_eq]
  simp only [encodeCall, checkedCall, Coder.phase_ready]
  rw [if_pos (by rfl), sourceWord_operand]

/-- DECODE of the right length in READY (rule R103). -/
theorem exec_decode_ready (s : State) (G : GenMatrix) (H : CheckMatrix) (d : BitVec 15) (h : s.coder = some (.ready G H)) :
    exec (.decode 11#4 d) s =
      .next { s with out := some ((Response.decoded (decodeWord H (d.setWidth 11))).render false) } := by
  rw [exec, execDecode_of_coder s _ _ _ h]
  simp only [decodeCall, checkedCall, Coder.phase_ready]
  rw [if_pos (by rfl), receivedWord_operand]

theorem answer_encOf (s : State) (G : GenMatrix) (H : CheckMatrix) (v : SourceWord) (h : s.coder = some (.ready G H)) :
    answer (encOf v) s = some (encodedWord (encodeWord G v)) := by
  have e : (BitVec.setWidth 15 v).setWidth 6 = v := by ext i hi; simp
  rw [answer, encOf, exec_encode_ready s G H _ h, e]

theorem answer_decOf (s : State) (G : GenMatrix) (H : CheckMatrix) (rw' : CodedWord) (h : s.coder = some (.ready G H)) :
    answer (decOf rw') s = some ((Response.decoded (decodeWord H rw')).render false) := by
  have e : (BitVec.setWidth 15 rw').setWidth 11 = rw' := by ext i hi; simp
  rw [answer, decOf, exec_decode_ready s G H _ h, e]

/-! ### The classifier -/

theorem classify_eq_valid {H : CheckMatrix} {syn : Syndrome} : classify H syn = .valid ↔ syn = 0#4 := by
  unfold classify
  split
  · simp_all
  · split <;> simp_all

theorem classify_eq_uncorrectable {H : CheckMatrix} {syn : Syndrome} :
    classify H syn = .uncorrectable ↔ syn ≠ 0#4 ∧ ∀ p, col H p ≠ syn := by
  unfold classify
  split
  · simp_all
  · split
    · rename_i q hq
      have hm : col H q = syn := by simpa using List.find?_some hq
      simp only [reduceCtorEq, false_iff, not_and, not_forall]
      exact fun _ => ⟨q, not_not.2 hm⟩
    · rename_i hq
      rw [List.find?_eq_none] at hq
      simp only [true_iff]
      refine ⟨‹_›, fun p => ?_⟩
      simpa using hq p (by fin_cases p <;> simp [columnIndices])

/-- The classifier answers the least matching column (rules R99 and R100). -/
theorem classify_eq_corrected {H : CheckMatrix} {syn : Syndrome} {p : Fin 10} :
    classify H syn = .corrected p ↔ syn ≠ 0#4 ∧ col H p = syn ∧ ∀ q < p, col H q ≠ syn := by
  have forward : ∀ q, classify H syn = .corrected q → syn ≠ 0#4 ∧ col H q = syn ∧ ∀ r < q, col H r ≠ syn := by
    intro q h
    unfold classify at h
    split at h
    · cases h
    · refine ⟨‹_›, ?_⟩
      split at h
      · rename_i r hr
        cases h
        simp only [columnIndices, List.find?_cons, List.find?_nil] at hr
        repeat' split at hr
        all_goals simp only [Option.some.injEq, reduceCtorEq] at hr
        all_goals subst hr
        all_goals simp_all only [decide_eq_true_eq, decide_eq_false_iff_not]
        all_goals (refine ⟨trivial, ?_⟩; intro q hq; fin_cases q <;> first | assumption | (exfalso; revert hq; decide))
      · cases h
  refine ⟨forward p, fun ⟨h1, h2, h3⟩ => ?_⟩
  rcases hc : classify H syn with _ | q | _
  · exact absurd (classify_eq_valid.1 hc) h1
  · obtain ⟨-, e, l⟩ := forward q hc
    rcases lt_trichotomy p q with h | h | h
    · exact absurd h2 (l _ h)
    · rw [h]
    · exact absurd e (h3 _ h)
  · exact absurd h2 ((classify_eq_uncorrectable.1 hc).2 p)

end Sys2Proof.Machine
end

