-- ==== Sys2Proof/Laws/PerInstr.lean ====
section
/-! SUPPORT. The family OpcodeRow, one lemma per constructor: what the encoder writes for an instruction is a word of the
instruction's own row of the opcode map (rule R49), or an entry with its two row indices in their fields (rule R48). -/

namespace Sys2Proof.Laws.OpcodeRow

/-- The encoding of `i` is a word of the row of `i`. -/
def Statement (i : Instr) : Prop :=
  match encode i with
  | .cmd w => ∃ r, i.row = some r ∧ r.selects w = true
  | .oprom e => i = .rowxor (OpEntry.src e) (OpEntry.tgt e)

theorem construct : Statement .construct := ⟨.construct, rfl, by decide⟩

theorem idle : Statement .idle := ⟨.idle, rfl, by decide⟩

theorem encode (len : BitVec 4) (data : BitVec 15) : Statement (.encode len data) := by
  refine ⟨.encode, rfl, decide_eq_true ?_⟩
  ext i hi
  rw [BitVec.getElem_and, ← BitVec.getLsbD_eq_getElem, Machine.getLsbD_cmdWord]
  interval_cases i <;> simp [OpRow.mask, OpRow.value]

theorem decode (len : BitVec 4) (data : BitVec 15) : Statement (.decode len data) := by
  refine ⟨.decode, rfl, decide_eq_true ?_⟩
  ext i hi
  rw [BitVec.getElem_and, ← BitVec.getLsbD_eq_getElem, Machine.getLsbD_cmdWord]
  interval_cases i <;> simp [OpRow.mask, OpRow.value]

theorem rowxor (src tgt : RowIndex) : Statement (.rowxor src tgt) := by
  have h : ∀ s t : RowIndex, OpEntry.src (s ++ t) = s ∧ OpEntry.tgt (s ++ t) = t := by decide
  show Instr.rowxor src tgt = .rowxor (OpEntry.src (src ++ tgt)) (OpEntry.tgt (src ++ tgt))
  rw [(h src tgt).1, (h src tgt).2]

end Sys2Proof.Laws.OpcodeRow
end

