-- ==== Sys2Proof/Laws/Run.lean ====
section
/-! SUPPORT. Steps and runs: what a step can do, and how the host's run unfolds. -/

namespace Sys2Proof.Machine

/-- Everything a step can do when it gives a next state: it takes one input word; the constants stay; `(phase, G, H)` either
stays or is what the constants give; the output word shows the phase (rules R15, R24, R40, R45). -/
theorem step_cases {s t : State} (h : step s = .next t) :
    ∃ w rest c o, s.inputs = w :: rest ∧
      t = { s with inputs := rest, coder := some c, out := some o, conv := t.conv } ∧
      (decodeCmd w = .construct ∧ t.conv = .idle ∧ c = constructCoder s.cfg ∨
        decodeCmd w ≠ .construct ∧ t.conv = s.conv ∧ s.coder = some c) ∧
      OutWord.fault o = c.phase := by
  obtain ⟨w, rest, hi, h⟩ := step_next_inputs h
  refine ⟨w, rest, ?_⟩
  rcases exec_next_cases h with ⟨hw, rfl⟩ | ⟨c, hk, hw, rfl⟩ | ⟨c, l, d, hk, hw, rfl⟩ | ⟨c, l, d, hk, hw, rfl⟩ |
    ⟨M, a, b, -, hw, -⟩
  · exact ⟨_, _, hi, rfl, .inl ⟨hw, rfl, rfl⟩, fault_render _ _⟩
  · exact ⟨c, _, hi, by simp_all, .inr ⟨by simp [hw], rfl, hk⟩, fault_render _ .silent⟩
  · exact ⟨c, _, hi, by simp_all, .inr ⟨by simp [hw], rfl, hk⟩, fault_render _ (encodeCall c (operand l d))⟩
  · exact ⟨c, _, hi, by simp_all, .inr ⟨by simp [hw], rfl, hk⟩, fault_render _ (decodeCall c (operand l d))⟩
  · exact absurd hw (decodeCmd_ne_rowxor _ _ _)

/-- An input word with `rst = 1` is CONSTRUCT whatever its other bits are (rule R41). -/
theorem decodeCmd_rst (w : InWord) (h : w[21] = true) : decodeCmd w = .construct := by
  simp [decodeCmd, InWord.rst, h]

/-- One step of the host's run. -/
theorem core_run_succ (k : Nat) (s t : State) (h : step s = .next t) :
    Host.Core.run core (k + 1) s = Host.Core.run core k t := by
  have key : ∀ (M : Host.Core) (k : Nat) (s t : M.State), M.step s = .next t → M.run (k + 1) s = M.run k t := by
    intro M k s t h
    simp only [Host.Core.run, h]
  exact key core k s t h

/-- The waiting words have no effect on an instruction (rule R40). -/
theorem exec_with_inputs (i : Instr) (s t : State) (ws : List InWord) (h : exec i s = .next t) :
    exec i { s with inputs := ws } = .next { t with inputs := ws } := by
  rcases exec_next_cases h with ⟨rfl, rfl⟩ | ⟨c, hk, rfl, rfl⟩ | ⟨c, l, d, hk, rfl, rfl⟩ | ⟨c, l, d, hk, rfl, rfl⟩ |
    ⟨M, a, b, hk, rfl, rfl⟩
  · rw [exec, execConstruct_eq]
  · exact execIdle_of_coder { s with inputs := ws } c hk
  · exact execEncode_of_coder { s with inputs := ws } c _ _ hk
  · exact execDecode_of_coder { s with inputs := ws } c _ _ hk
  · exact execRowxor_working { s with inputs := ws } M _ _ hk

end Sys2Proof.Machine
end

