-- ==== Sys2Proof/Tests/Slice0.lean ====
section
/-! SUPPORT. Tests of the model against the spec's own examples, and for every statement with hypotheses a concrete state and
operands that meet them. Expected values come from spec/ (95_test_vectors.md where no rule is named). The instance
`refConfig` is rule R82's. -/

namespace Sys2Proof.Tests

open Sys2Proof.Machine

/-! ### Instances and states -/

/-- `CFG_BADIDX` (section 8). -/
def badIdx : Config := ⟨seedRef, opsRef.set 5 0x30⟩

/-- `CFG_SHORT` (section 8). -/
def short : Config := ⟨seedRef, opsRef.dropLast⟩

/-- The parity-check matrix of `CFG_DUP` (section 8): columns 0 and 1 equal, column 2 equal to column 6, column 3 zero. -/
def hDup : CheckMatrix := #v[0x067, 0x093, 0x130, 0x230]

/-- The seed of `CFG_DUP` (section 8), already systematic. -/
def gDup : GenMatrix := #v[0x0C1, 0x0C2, 0x044, 0x008, 0x390, 0x360]

/-- A block built with `CFG_DUP`, in READY. -/
def dupReady : State := ⟨⟨gDup, []⟩, some (.ready gDup hDup), .idle, [], none⟩

/-- A block built with `refConfig`, in READY, with these input words waiting. -/
def refReady (ws : List InWord) : State := ⟨refConfig, some (.ready gRef hRef), .idle, ws, none⟩

/-- A block built with `badIdx`, in FAULT. -/
def badFault (ws : List InWord) : State := ⟨badIdx, some .fault, .idle, ws, none⟩

/-- A block with a conversion under way on the seed of `refConfig`. -/
def converting : State := ⟨refConfig, none, .working seedRef, [], none⟩

/-- The output word of an outcome. -/
def outOf : Host.Outcome State Fault Refusal → Option OutWord
  | .next t => t.out
  | _ => none

/-- The converter of an outcome. -/
def convOf : Host.Outcome State Fault Refusal → Option Converter
  | .next t => some t.conv
  | _ => none

/-- The coder of an outcome. -/
def coderAfter : Host.Outcome State Fault Refusal → Option Coder
  | .next t => t.coder
  | _ => none

/-! ### Ill-formed terms (rules R48, R70) -/

theorem test_wellFormed_refuses_src_6 : Instr.wellFormed (.rowxor 6#3 0#3) = false := by decide
theorem test_wellFormed_refuses_tgt_7 : Instr.wellFormed (.rowxor 0#3 7#3) = false := by decide

/-! ### Decoding words written out from the tables of rules R41 and R48 -/

theorem test_decode_construct : decode (.cmd 0b1_0_0_0000_000000000000000#22) = .ok .construct := by rfl
theorem test_decode_construct_overrides : decode (.cmd 0b1_1_1_1111_111111111111111#22) = .ok .construct := by rfl
theorem test_decode_idle_ignores : decode (.cmd 0b0_0_1_1111_111111111111111#22) = .ok .idle := by rfl
theorem test_decode_encode : decode (.cmd 0b0_1_0_0110_000000000110110#22) = .ok (.encode 6#4 0x36#15) := by rfl
theorem test_decode_decode : decode (.cmd 0b0_1_1_1011_000011111111111#22) = .ok (.decode 11#4 0x7FF#15) := by rfl
theorem test_decode_rowxor : decode (.oprom 0b101_100#6) = .ok (.rowxor 5#3 4#3) := by rfl
theorem test_decode_reserved_src : decode (.oprom 0b110_000#6) = .error .reservedRowIndex := by rfl
theorem test_decode_reserved_tgt : decode (.oprom 0b000_111#6) = .error .reservedRowIndex := by rfl
theorem test_decodeTableWord_cmd : decodeTableWord 24 0x1D87FF = some (.decode 11#4 0x7FF#15) := by decide
theorem test_decodeTableWord_oprom : decodeTableWord 8 0x2C = some (.rowxor 5#3 4#3) := by decide
theorem test_decodeTableWord_too_wide : decodeTableWord 24 0x400000 = none ∧ decodeTableWord 8 0x40 = none := by decide

/-! ### The multiplier (section 7) -/

theorem test_xorRed : xorRed 0b1111111111#10 = false ∧ xorRed 0b11111111111#11 = true ∧ xorRed 0#0 = false := by decide
theorem test_dot : dot 0b1101#4 0b1011#4 = false ∧ dot 0b0111#4 0b0111#4 = true := by decide
theorem test_vmul : vmul 0x36#6 gRef = 0x3F6#10 ∧ vmul 0x20#6 gRef = 0x2A0#10 := by decide
theorem test_mvmul : mvmul hRef 0b11#10 = 0b0101#4 ∧ mvmul hRef 0x3FF#10 = 0b1010#4 := by decide

/-! ### ROWXOR and CONSTRUCT -/

/-- The example of rule R70. -/
theorem test_rowxor_example : convOf (exec (.rowxor 0#3 2#3) converting) =
    some (.working #v[0x087, 0x092, 0x0AE, 0x0C8, 0x18B, 0x289]) := by decide

/-- Rule R71 (b). -/
theorem test_rowxor_self : convOf (exec (.rowxor 3#3 3#3) converting) =
    some (.working #v[0x087, 0x092, 0x029, 0, 0x18B, 0x289]) := by decide

/-- The matrix after step 7 of section 3. -/
theorem test_convert_half : convert seedRef (opsRef.take 8) =
    some #v[0x029, 0x092, 0x03C, 0x0C8, 0x130, 0x29C] := by decide

theorem test_pcDerive : pcDerive gRef = hRef := by decide
theorem test_wfCol_ref : wfCol refConfig = true := by decide

theorem test_construct_ref : outOf (exec .construct (State.preReset refConfig)) = some 0x00000#18 ∧
    coderAfter (exec .construct (State.preReset refConfig)) = some (.ready gRef hRef) := by decide

theorem test_construct_badIdx : outOf (exec .construct (State.preReset badIdx)) = some 0x20000#18 ∧
    coderAfter (exec .construct (State.preReset badIdx)) = some .fault := by decide

/-! ### ENCODE, DECODE, IDLE -/

set_option maxRecDepth 4000 in
theorem test_encode_scenario : outOf (step (refReady [0x130036#22])) = some 0x103F6#18 := by decide
theorem test_encode_length_5 : outOf (step (refReady [0x128016#22])) = some 0x14000#18 := by decide
theorem test_decode_corrected : outOf (step (refReady [0x1D8349#22])) = some 0x1280D#18 := by decide
theorem test_decode_uncorrectable : outOf (step (refReady [0x1D834E#22])) = some 0x13000#18 := by decide
theorem test_idle_ready : outOf (step (refReady [0x0FFFFF#22])) = some 0x00000#18 := by decide
theorem test_idle_fault : outOf (step (badFault [0x000000#22])) = some 0x20000#18 := by decide
theorem test_fault_wins : outOf (step (badFault [0x128016#22])) = some 0x38000#18 := by decide

/-- Section 8, `CFG_DUP`: the least of two equal columns (rule R100), and a zero column is never matched (rule R99). -/
theorem test_classify_least_column : classify hDup 0b0011#4 = .corrected 0 ∧ classify hDup 0b0001#4 = .corrected 2 ∧
    classify hDup 0#4 = .valid := by decide

/-! ### The very next step runs the placed instruction -/

/-- Whether an outcome is a next state. -/
def isNext : Host.Outcome State Fault Refusal → Bool
  | .next _ => true
  | _ => false

theorem test_withFetchWord_cmd : isNext (step (State.reset.withFetchWord 24 0x200000)) = true ∧
    isNext (step (State.reset.withFetchWord 24 0x000000)) = true ∧
    isNext (step (State.reset.withFetchWord 24 0x100000)) = true ∧
    isNext (step (State.reset.withFetchWord 24 0x180000)) = true := by decide

/-- The step after a ROWXOR entry is placed converts the seed by exactly that entry. -/
theorem test_withFetchWord_oprom : isNext (step (State.reset.withFetchWord 8 0x2C)) = true ∧
    coderAfter (step ((refReady []).withFetchWord 8 0x2C)) = some .fault := by decide

/-! ### Witnesses: for each statement with hypotheses, a state and operands that meet them -/

theorem constructCoder_ref : constructCoder refConfig = .ready gRef hRef := by decide

theorem constructCoder_badIdx : constructCoder badIdx = .fault := by decide

theorem refReady_inv (ws : List InWord) : (refReady ws).Inv where
  conv_idle := rfl
  coder_built := fun c h => by rw [← Option.some.inj h]; exact constructCoder_ref.symm
  out_listed := fun o h => nomatch h

theorem constructCoder_dup : constructCoder ⟨gDup, []⟩ = .ready gDup hDup := by decide

theorem dupReady_inv : dupReady.Inv where
  conv_idle := rfl
  coder_built := fun c h => by rw [← Option.some.inj h]; exact constructCoder_dup.symm
  out_listed := fun o h => nomatch h

theorem badFault_inv (ws : List InWord) : (badFault ws).Inv where
  conv_idle := rfl
  coder_built := fun c h => by rw [← Option.some.inj h]; exact constructCoder_badIdx.symm
  out_listed := fun o h => nomatch h

theorem witness_StepRunsDecodedInstruction :
    (refReady [0x130036#22]).inputs = 0x130036#22 :: [] ∧ (refReady []).inputs = [] := by decide

theorem witness_InputWordDecodePriority :
    (0x3FFFFF#22)[21] = true ∧ ((0x0FFFFF#22)[21] = false ∧ (0x0FFFFF#22)[20] = false) ∧
    ((0x17FFFF#22)[21] = false ∧ (0x17FFFF#22)[20] = true ∧ (0x17FFFF#22)[19] = false ∧
      (∀ i : Fin 4, (15#4)[i] = (0x17FFFF#22)[15 + i.val]) ∧ ∀ i : Fin 15, (0x7FFF#15)[i] = (0x17FFFF#22)[i.val]) ∧
    ((0x187FFF#22)[21] = false ∧ (0x187FFF#22)[20] = true ∧ (0x187FFF#22)[19] = true ∧
      (∀ i : Fin 4, (0#4)[i] = (0x187FFF#22)[15 + i.val]) ∧ ∀ i : Fin 15, (0x7FFF#15)[i] = (0x187FFF#22)[i.val]) := by
  decide

theorem witness_DecodeOfEncodeIsIdentity : Instr.wellFormed (.rowxor 5#3 0#3) = true := by decide

theorem witness_EncodeOfDecodeKeepsFields : decode (.cmd 0x3FFFFF#22) = .ok .construct ∧
    decode (.cmd 0x0FFFFF#22) = .ok .idle ∧ decode (.cmd 0x17FFFF#22) = .ok (.encode 15#4 0x7FFF#15) ∧
    decode (.oprom 0x2D#6) = .ok (.rowxor 5#3 5#3) := ⟨rfl, rfl, rfl, rfl⟩

theorem witness_ReservedEntriesAreRejected : ((5#3).toNat ≤ 5 ∧ (5#3).toNat ≤ 5) ∧
    (6 ≤ (6#3).toNat ∨ 6 ≤ (5#3).toNat) ∧ (6 ≤ (5#3).toNat ∨ 6 ≤ (6#3).toNat) := by decide

theorem witness_LanesAboveLengthAreIgnored :
    ∀ i : Fin 15, i.val < (6#4).toNat → (0x0036#15)[i] = (0x7FF6#15)[i] := by decide

theorem witness_RowXorReplacesTargetRow : (5#3).toNat ≤ 5 ∧ (0#3).toNat ≤ 5 ∧ converting.conv = .working seedRef := by decide

theorem witness_RowXorOutsideItsDomain : (converting.conv = .working seedRef ∧ (6 ≤ (6#3).toNat ∨ 6 ≤ (0#3).toNat)) ∧
    (refReady []).conv = .idle ∧ ({ converting with conv := .inconsistent } : State).conv = .inconsistent := by decide

theorem witness_RowXorSelfZeroesElseInvolutive : (5#3).toNat ≤ 5 ∧ (0#3) ≠ 5#3 ∧ (rowXor seedRef 0#3 5#3).isSome = true := by
  decide

theorem witness_ConvertRunsRowXorInOrder :
    (converting.conv = .working seedRef ∧
      [0x2C#6].map (fun e => decode (.oprom e)) = [Instr.rowxor 5#3 4#3].map .ok) ∧
    ∃ e ∈ [0x2C#6, 0x30#6], decode (.oprom e) = .error .reservedRowIndex :=
  ⟨⟨rfl, rfl⟩, 0x30#6, by decide, rfl⟩

theorem witness_ConstructBuildsMatricesOrFaults :
    (convert refConfig.seed refConfig.ops = some gRef ∧ sysChk gRef = true) ∧ convert badIdx.seed badIdx.ops = none ∧
    ∃ M, convert short.seed short.ops = some M ∧ sysChk M = false :=
  ⟨by decide, by decide, #v[0x241, 0x302, 0x1C4, 0x0C8, 0x130, 0x2A0], by decide⟩

theorem witness_ResetStepLeavesTableState :
    ((refReady [0x3FFFFF#22]).inputs = 0x3FFFFF#22 :: [] ∧ (0x3FFFFF#22)[21] = true ∧ wfSys (refReady []).cfg = true) ∧
    ((badFault [0x200000#22]).inputs = 0x200000#22 :: [] ∧ (0x200000#22)[21] = true ∧ wfSys (badFault []).cfg = false) := by
  decide

theorem witness_ConstructIsHistoryFree :
    ((refReady []).cfg = (State.preReset refConfig).cfg ∧ (refReady []).coder ≠ (State.preReset refConfig).coder) ∧
    (badFault []).Inv ∧ (badFault []).coder = some .fault := ⟨by decide, badFault_inv [], rfl⟩

theorem witness_ReservedEntryAnywhereFaults : ∃ e ∈ (badFault []).cfg.ops, 6 ≤ (OpEntry.src e).toNat ∨ 6 ≤ (OpEntry.tgt e).toNat :=
  ⟨0x30#6, by decide, by decide⟩

theorem witness_SelfXorEntryFaults : ∃ e ∈ (State.preReset ⟨seedRef, opsRef ++ [0x1B]⟩).cfg.ops, OpEntry.src e = OpEntry.tgt e :=
  ⟨0x1B#6, by decide, by decide⟩

/-- Two lists that pass the check on one seed: the second makes and unmakes one more row XOR. -/
theorem witness_MatricesDependOnlyOnSeed :
    ∃ s s' t t' G G' H H', s.cfg.seed = s'.cfg.seed ∧ s.cfg.ops ≠ s'.cfg.ops ∧ exec .construct s = .next t ∧
      t.coder = some (.ready G H) ∧ exec .construct s' = .next t' ∧ t'.coder = some (.ready G' H') :=
  ⟨State.preReset refConfig, State.preReset ⟨seedRef, opsRef ++ [0x01, 0x01]⟩, _, _, gRef, gRef, hRef, hRef, rfl, by decide,
    execConstruct_eq _, by decide, execConstruct_eq _, by decide⟩

/-- Also for EncodedWordIsSystematic, DecodeOfEncodeReturnsSourceWord, ParityBitErrorIsInvisible and
ReadyMatricesHaveSystematicForm, whose hypotheses are these two. -/
theorem witness_GeneratorTimesCheckTransposeIsZero :
    (refReady []).Inv ∧ (refReady []).coder = some (.ready gRef hRef) := ⟨refReady_inv [], rfl⟩

/-- Also for EncodedWordHasEvenParity, EncodingIsLinear, UnitEncodingsRecoverGenerator, ZeroSyndromeExactlyWhenValid and
OverallParityBitHasNoEffect, whose one hypothesis this is. -/
theorem witness_EncodeMultipliesByGenerator : (refReady []).coder = some (.ready gRef hRef) := rfl

theorem witness_RejectedCallsAnswerTheirCode : (badFault []).coder = some .fault ∧
    ((refReady []).coder = some (.ready gRef hRef) ∧ 5#4 ≠ 6#4 ∧ 7#4 ≠ 6#4 ∧ 10#4 ≠ 11#4 ∧ 12#4 ≠ 11#4) := by decide

theorem witness_DecodeOfEncodeReturnsSourceWord : (refReady []).Inv ∧ (refReady []).coder = some (.ready gRef hRef) ∧
    0#6 ≠ 1#6 := ⟨refReady_inv [], rfl, by decide⟩

theorem witness_MinimumDistanceOfTheCode : (refReady []).Inv ∧ (refReady []).coder = some (.ready gRef hRef) ∧
    columnsDistinct hRef = true ∧ 0#6 ≠ 1#6 := ⟨refReady_inv [], rfl, by decide, by decide⟩

/-- Whether `syn` is the syndrome of the lanes `data` by `hRef`, in the words of the statement. -/
def IsSyndrome (data : BitVec 15) (syn : BitVec 4) : Prop :=
  ∀ t : Fin 4, syn[t] = xorList [data[0] && hRef.bit t 0, data[1] && hRef.bit t 1, data[2] && hRef.bit t 2,
    data[3] && hRef.bit t 3, data[4] && hRef.bit t 4, data[5] && hRef.bit t 5, data[6] && hRef.bit t 6, data[7] && hRef.bit t 7,
    data[8] && hRef.bit t 8, data[9] && hRef.bit t 9]

/-- The three clauses: VALID, CORRECTED at the least index and at the greatest, UNCORRECTABLE. -/
theorem witness_DecodeClassifiesSyndrome : (refReady []).coder = some (.ready gRef hRef) ∧
    IsSyndrome 0x034D#15 0#4 ∧
    (IsSyndrome 0x034C#15 0b1001#4 ∧ (0b1001#4 ≠ 0#4) ∧ (∀ t : Fin 4, hRef.bit t 0 = (0b1001#4)[t]) ∧
      ∀ q < (0 : Fin 10), ∃ t : Fin 4, hRef.bit t q ≠ (0b1001#4)[t]) ∧
    (IsSyndrome 0x014D#15 0b1000#4 ∧ (0b1000#4 ≠ 0#4) ∧ (∀ t : Fin 4, hRef.bit t 9 = (0b1000#4)[t]) ∧
      ∀ q < (9 : Fin 10), ∃ t : Fin 4, hRef.bit t q ≠ (0b1000#4)[t]) ∧
    (IsSyndrome 0x034E#15 0b0101#4 ∧ (0b0101#4 ≠ 0#4) ∧ ∀ p : Fin 10, ∃ t : Fin 4, hRef.bit t p ≠ (0b0101#4)[t]) := by
  unfold IsSyndrome; decide

theorem witness_SyndromeOfCorruptedCodeword : mvmul hRef 0x241#10 = 0#4 ∧ (0 : Fin 10) ≠ 9 := by decide

/-- At an index below 6 and at one above 5. -/
theorem witness_CorrectedBodyIsCodeword : classify hRef (syndrome hRef 0x34C#10) = .corrected 0 ∧
    classify hRef (syndrome hRef 0x14D#10) = .corrected 9 := by decide

theorem witness_SingleBodyErrorIsCorrected : (refReady []).Inv ∧ (refReady []).coder = some (.ready gRef hRef) ∧
    wfCol (refReady []).cfg = true := ⟨refReady_inv [], rfl, by decide⟩

/-- The clauses without the premise: `CFG_DUP` (section 8), a zero column and two equal columns. -/
theorem witness_SingleBodyErrorIsCorrected_without_premise : dupReady.Inv ∧ dupReady.coder = some (.ready gDup hDup) ∧
    col hDup 3 = 0#4 ∧ col hDup 0 = col hDup 1 ∧ col hDup 1 ≠ 0#4 := ⟨dupReady_inv, rfl, by decide, by decide, by decide⟩

theorem witness_DoubleBodyErrorIsNeverValid : (refReady []).Inv ∧ (refReady []).coder = some (.ready gRef hRef) ∧
    wfCol (refReady []).cfg = true ∧ (0 : Fin 10) ≠ 9 := ⟨refReady_inv [], rfl, by decide, by decide⟩

theorem witness_ExactlyFiveSyndromesAreUncorrectable : columnsDistinct hRef = true := by decide

theorem witness_IdleShowsFaultOnly : (refReady []).coder = some (.ready gRef hRef) ∧ (badFault []).coder = some .fault := by
  decide

theorem witness_StepIsTotalAfterReset :
    ((badFault [0x1FFFFF#22]).inputs = 0x1FFFFF#22 :: [] ∧ (badFault [0x1FFFFF#22]).coder = some .fault) ∧
    (((State.preReset refConfig).present [0x200000#22]).coder = none ∧ (0x200000#22)[21] = true) ∧
    (((State.preReset refConfig).present [0x1FFFFF#22]).coder = none ∧ (0x1FFFFF#22)[21] = false) := by decide

/-- A next state for every instruction. -/
theorem witness_OnlyConstructWritesTheMatrices :
    isNext (exec .construct (refReady [])) = true ∧ isNext (exec .idle (refReady [])) = true ∧
    isNext (exec (.encode 6#4 0#15) (refReady [])) = true ∧ isNext (exec (.decode 11#4 0#15) (refReady [])) = true ∧
    isNext (exec (.rowxor 5#3 4#3) converting) = true := by decide

/-- Also for EveryOutputWordIsListed. -/
theorem witness_EveryStepKeepsInvariant : (refReady [0x130036#22]).Inv ∧ ∃ t, step (refReady [0x130036#22]) = .next t :=
  ⟨refReady_inv _, _, rfl⟩

theorem witness_FaultPhaseIsPermanent : (badFault [0x200000#22]).Inv ∧ (badFault [0x200000#22]).coder = some .fault ∧
    ∃ t, step (badFault [0x200000#22]) = .next t := ⟨badFault_inv _, rfl, _, rfl⟩

/-- Two states that differ in the earlier output word and in the words still waiting. -/
theorem witness_OutputDependsOnStateAndInputOnly :
    ∃ s s' t : State, s.cfg = s'.cfg ∧ s.coder = s'.coder ∧ s.inputs = 0x130036#22 :: [] ∧ s'.inputs = 0x130036#22 :: [0#22] ∧
      s.out ≠ s'.out ∧ step s = .next t :=
  ⟨refReady [0x130036#22], { refReady [0x130036#22, 0#22] with out := some 0#18 }, _, rfl, rfl, rfl, rfl, by decide, rfl⟩

theorem witness_RunOutputsAreWordByWord : (refReady []).Inv ∧ (refReady []).coder = some (.ready gRef hRef) :=
  ⟨refReady_inv [], rfl⟩

theorem witness_RunFromFirstResetAnswersEveryWord : (0x3FFFFF#22)[21] = true := by decide

theorem witness_WellUsedRunIsClean : (0x200000#22)[21] = true ∧ wfSys refConfig = true ∧
    ∀ u ∈ [0x130036#22, 0x1D87FF#22, 0x000000#22], (∀ len data, decodeCmd u = .encode len data → len = 6#4) ∧
      (∀ len data, decodeCmd u = .decode len data → len = 11#4) := by
  have h1 : decodeCmd 0x130036#22 = .encode 6#4 0x36#15 := rfl
  have h2 : decodeCmd 0x1D87FF#22 = .decode 11#4 0x7FF#15 := rfl
  have h3 : decodeCmd 0x000000#22 = .idle := rfl
  refine ⟨by decide, by decide, ?_⟩
  simp only [List.forall_mem_cons, h1, h2, h3]
  simp [eq_comm]

theorem witness_CoreRunFollowsTheInputWords : ∃ t os, runWords (refReady []) [0x130036#22] = some (t, os) := ⟨_, _, rfl⟩

theorem witness_ReferenceInstanceIsReady : (State.preReset refConfig).cfg = refConfig := rfl

end Sys2Proof.Tests
end

section
/-! PROOFS. The reset table of rule R24: CONSTRUCT's two branches by `WF_SYS`, and the step on a word with `rst = 1`. -/

namespace Sys2Proof.Machine

/-- The READY rows of the reset table (rule R24). -/
theorem constructCoder_of_wfSys {cfg : Config} (h : wfSys cfg = true) :
    ∃ M, convert cfg.seed cfg.ops = some M ∧ sysChk M = true ∧ constructCoder cfg = .ready M (pcDerive M) := by
  obtain ⟨M, hM, hsys⟩ := (wfSys_iff cfg).mp h
  exact ⟨M, hM, hsys, by simp [constructCoder, coderOf, hM, hsys]⟩

/-- The FAULT row of the reset table (rule R24): a READY coder would be a witness of `WF_SYS`. -/
theorem constructCoder_of_not_wfSys {cfg : Config} (h : wfSys cfg = false) : constructCoder cfg = .fault := by
  cases hc : constructCoder cfg with
  | fault => rfl
  | ready G H =>
    obtain ⟨hG, hsys, -⟩ := coderOf_ready hc
    rw [(wfSys_iff cfg).mpr ⟨G, hG, hsys⟩] at h
    cases h

/-- The output word of a reset step that ends in READY (rules R24 and R46). -/
theorem silent_render_ready (G : GenMatrix) (H : CheckMatrix) :
    Response.silent.render (Coder.ready G H).phase = 0x00000#18 := by
  simp [silent_render]

/-- The output word of a reset step that ends in FAULT (rules R24 and R46). -/
theorem silent_render_fault : Response.silent.render Coder.fault.phase = 0x20000#18 := by
  simp [silent_render]

/-- A step on a word with `rst = 1` is CONSTRUCT, and its next state depends on the constants and the waiting words only
(rules R24 and R135). -/
theorem step_of_rst (s : State) (w : InWord) (rest : List InWord) (h : s.inputs = w :: rest) (hrst : w[21] = true) :
    step s = .next { s with
      inputs := rest, coder := some (constructCoder s.cfg), conv := .idle,
      out := some (Response.silent.render (constructCoder s.cfg).phase) } := by
  rw [step_of_inputs s w rest h, decodeCmd_rst w hrst, exec, execConstruct_eq]

/-- Settles O18: CONSTRUCT's result is a function of the constants, so both halves are the two branches of `WF_SYS`. -/
theorem resetStepLeavesTableState : Obligations.ResetStepLeavesTableState := by
  refine ⟨fun s w rest hin hrst => ⟨_, step_of_rst s w rest hin hrst, rfl, fun hwf => ?_, fun hwf => ?_⟩, ?_⟩
  · obtain ⟨M, hM, hsys, hc⟩ := constructCoder_of_wfSys hwf
    exact ⟨M, hM, hsys, by rw [hc], by rw [hc, silent_render_ready]⟩
  · have hc := constructCoder_of_not_wfSys hwf
    exact ⟨by rw [hc], by rw [hc, silent_render_fault]⟩
  · cases hwf : wfSys Config.built with
    | true =>
      obtain ⟨M, hM, hsys, hc⟩ := constructCoder_of_wfSys hwf
      exact .inl ⟨M, hM, hsys, by rw [State.reset, hc], by rw [State.reset, hc, silent_render_ready]⟩
    | false =>
      have hc := constructCoder_of_not_wfSys hwf
      exact .inr ⟨hwf, by rw [State.reset, hc], by rw [State.reset, hc, silent_render_fault]⟩

end Sys2Proof.Machine
end

section
/-! PROOFS. The input word and the operand (rules R41, R43, R44): the decode by the control bits, the two operand fields
by their bit positions, and an operand by its lanes below `len`. -/

namespace Sys2Proof.Machine

/-! ### Operand assembly -/

/-- The lanes below `len`, and no others, make the operand (rules R43 and R44). -/
theorem operand_congr {len : BitVec 4} {d d' : BitVec 15} (h : ∀ i : Fin 15, i.val < len.toNat → d[i] = d'[i]) :
    operand len d = operand len d' := by
  have hlanes : d.setWidth len.toNat = d'.setWidth len.toNat := by
    ext i hi
    have hi15 : i < 15 := by have := len.isLt; omega
    simpa [hi15] using h ⟨i, hi15⟩ hi
  rw [operand, operand, hlanes]

/-- ENCODE reads its two fields through the operand alone (rules R43 and R85). -/
theorem execEncode_congr {len : BitVec 4} {d d' : BitVec 15} (h : operand len d = operand len d') (s : State) :
    execEncode len d s = execEncode len d' s := by
  cases hc : s.coder with
  | none => rw [execEncode_of_none s _ _ hc, execEncode_of_none s _ _ hc]
  | some c => rw [execEncode_of_coder s c _ _ hc, execEncode_of_coder s c _ _ hc, h]

/-- DECODE reads its two fields through the operand alone (rules R43 and R95). -/
theorem execDecode_congr {len : BitVec 4} {d d' : BitVec 15} (h : operand len d = operand len d') (s : State) :
    execDecode len d s = execDecode len d' s := by
  cases hc : s.coder with
  | none => rw [execDecode_of_none s _ _ hc, execDecode_of_none s _ _ hc]
  | some c => rw [execDecode_of_coder s c _ _ hc, execDecode_of_coder s c _ _ hc, h]

/-- Settles O8: operands that agree below `len` are one operand, and a call sees its data lanes only through the operand. -/
theorem lanesAboveLengthAreIgnored : Obligations.LanesAboveLengthAreIgnored := by
  intro len d d' s h
  have hop : operand len d = operand len d' := operand_congr h
  exact ⟨execEncode_congr hop s, execDecode_congr hop s⟩

/-! ### The fields and the decode of an input word -/

/-- A bit sequence that has `IN[18:15]` bit by bit is the `len` field (rule R41). -/
theorem inWord_len_eq {w : InWord} {len : BitVec 4} (h : ∀ i : Fin 4, len[i] = w[15 + i.val]) :
    InWord.len w = len := by
  ext i hi
  have hw : 15 + i < 22 := by omega
  simpa [InWord.len, hw] using (h ⟨i, hi⟩).symm

/-- A bit sequence that has `IN[14:0]` bit by bit is the `data` field (rule R41). -/
theorem inWord_data_eq {w : InWord} {data : BitVec 15} (h : ∀ i : Fin 15, data[i] = w[i.val]) :
    InWord.data w = data := by
  ext i hi
  have hw : i < 22 := by omega
  simpa [InWord.data, hw] using (h ⟨i, hi⟩).symm

/-- With `rst = 0` and `valid = 0` the word is IDLE, whatever its other bits are (rule R41). -/
theorem decodeCmd_not_valid (w : InWord) (hrst : w[21] = false) (hvalid : w[20] = false) : decodeCmd w = .idle := by
  simp [decodeCmd, InWord.rst, InWord.valid, hrst, hvalid]

/-- With `rst = 0`, `valid = 1` and `op = 0` the word is ENCODE of its two operand fields (rule R41). -/
theorem decodeCmd_encode (w : InWord) (hrst : w[21] = false) (hvalid : w[20] = true) (hop : w[19] = false) :
    decodeCmd w = .encode (InWord.len w) (InWord.data w) := by
  simp [decodeCmd, InWord.rst, InWord.valid, InWord.op, hrst, hvalid, hop]

/-- With `rst = 0`, `valid = 1` and `op = 1` the word is DECODE of its two operand fields (rule R41). -/
theorem decodeCmd_decode (w : InWord) (hrst : w[21] = false) (hvalid : w[20] = true) (hop : w[19] = true) :
    decodeCmd w = .decode (InWord.len w) (InWord.data w) := by
  simp [decodeCmd, InWord.rst, InWord.valid, InWord.op, hrst, hvalid, hop]

/-- Settles O2: one equation of the decoder per branch of the priority, with the two operand fields read bit by bit. -/
theorem inputWordDecodePriority : Obligations.InputWordDecodePriority := by
  intro w
  refine ⟨fun hrst => ?_, fun hrst hvalid => ?_, fun hrst hvalid len data hlen hdata => ⟨fun hop => ?_, fun hop => ?_⟩⟩
  · rw [decode, decodeCmd_rst w hrst]
  · rw [decode, decodeCmd_not_valid w hrst hvalid]
  · rw [decode, decodeCmd_encode w hrst hvalid hop, inWord_len_eq hlen, inWord_data_eq hdata]
  · rw [decode, decodeCmd_decode w hrst hvalid hop, inWord_len_eq hlen, inWord_data_eq hdata]

end Sys2Proof.Machine
end

section
/-! PROOFS. `XORRED` (rule R61): `xorUpTo` as the XOR of a list of bits and as the parity of a count, both by induction on
the length. -/

namespace Sys2Proof.Machine

/-- The XOR of a list grows at its end, as `xorUpTo` does. -/
theorem xorList_append_singleton (bs : List Bool) (b : Bool) : xorList (bs ++ [b]) = (xorList bs ^^ b) := by
  simp [xorList, List.foldl_append]

theorem xorUpTo_eq_xorList (f : Nat → Bool) (m : Nat) : xorUpTo f m = xorList ((List.range m).map f) := by
  induction m with
  | zero => rfl
  | succ m ih => rw [xorUpTo_succ, ih, List.range_succ, List.map_append, List.map_singleton, xorList_append_singleton]

/-- One more bit adds a one, which flips the XOR and the parity of the count, or changes neither. -/
theorem xorUpTo_eq_true_iff (f : Nat → Bool) (m : Nat) :
    xorUpTo f m = true ↔ (List.range m).countP f % 2 = 1 := by
  induction m with
  | zero => simp
  | succ m ih =>
    rw [xorUpTo_succ, List.range_succ, List.countP_append, List.countP_singleton]
    cases hf : f m with
    | false => simpa using ih
    | true =>
      have hflip : (xorUpTo f m ^^ true) = true ↔ ¬ xorUpTo f m = true := by simp
      rw [hflip, ih, if_pos rfl]
      omega

/-- `XORRED` is 1 exactly for an odd number of ones (rule R61). -/
theorem xorRed_eq_true_iff {m : Nat} (v : BitVec m) : xorRed v = true ↔ ones v % 2 = 1 :=
  xorUpTo_eq_true_iff v.getLsbD m

/-- Settles O9: both readings of `XORRED` are those of `xorUpTo` at the bits of the sequence. -/
theorem xorRedIsOddNumberOfOnes : Obligations.XorRedIsOddNumberOfOnes := by
  intro m v
  exact ⟨xorUpTo_eq_xorList v.getLsbD m, xorRed_eq_true_iff v⟩

end Sys2Proof.Machine
end

section
/-! PROOFS. CONSTRUCT (rule R78): what a construction makes of each result of the conversion, and the answer of the whole
step in each branch. -/

namespace Sys2Proof.Machine

/-- The READY branch of rule R78. -/
theorem coderOf_sysChk {M : GenMatrix} (h : sysChk M = true) : coderOf (some M) = .ready M (pcDerive M) := by
  simp [coderOf, h]

/-- The two ways into the FAULT branch of rule R78: the conversion fails, or its matrix fails `SYSCHK`. -/
theorem coderOf_eq_fault_iff (r : Option GenMatrix) :
    coderOf r = .fault ↔ r = none ∨ ∃ M, r = some M ∧ sysChk M = false := by
  cases r with
  | none => simp [coderOf]
  | some M => cases hsys : sysChk M <;> simp [coderOf, hsys]

/-- CONSTRUCT whose constants give READY: the two matrices, and an output word of zeros (rule R78). -/
theorem exec_construct_ready (s : State) {G : GenMatrix} {H : CheckMatrix} (h : constructCoder s.cfg = .ready G H) :
    exec .construct s = .next { s with coder := some (.ready G H), conv := .idle, out := some 0x00000#18 } := by
  rw [exec, execConstruct_eq, h, silent_render_ready]

/-- CONSTRUCT whose constants give FAULT: no matrices, and `fault` alone in the output word (rule R78). -/
theorem exec_construct_fault (s : State) (h : constructCoder s.cfg = .fault) :
    exec .construct s = .next { s with coder := some .fault, conv := .idle, out := some 0x20000#18 } := by
  rw [exec, execConstruct_eq, h, silent_render_fault]

/-- Settles O17: the coder of a construction by the result of the conversion, and CONSTRUCT's answer for that coder. -/
theorem constructBuildsMatricesOrFaults : Obligations.ConstructBuildsMatricesOrFaults := by
  intro s
  refine ⟨fun M hM hsys => ?_, fun hbad => ?_, fun w hrst => ?_⟩
  · exact exec_construct_ready s (by rw [constructCoder, hM, coderOf_sysChk hsys])
  · exact exec_construct_fault s ((coderOf_eq_fault_iff _).mpr hbad)
  · rw [decode, decodeCmd_rst w hrst]

end Sys2Proof.Machine
end

section
/-! PROOFS. ROWXOR (rule R70): the instruction on rows that exist, and its operation-list entry as a number (rule R48). -/

namespace Sys2Proof.Machine

/-- ROWXOR on rows that exist writes the target row of the working matrix and nothing else (rule R70). -/
theorem exec_rowxor_inRange (s : State) (M : GenMatrix) (src tgt : RowIndex) (hs : src.toNat < 6) (ht : tgt.toNat < 6)
    (h : s.conv = .working M) :
    exec (.rowxor src tgt) s =
      .next { s with conv := .working (M.set tgt.toNat (M[tgt.toNat] ^^^ M[src.toNat])) } := by
  rw [exec, execRowxor_working s M src tgt h, rowXor_inRange M src tgt hs ht]

/-- An operation-list entry as a number: `src` stands three bits above `tgt` (rule R48). -/
theorem rowIndex_append_eq_ofNat (src tgt : RowIndex) : src ++ tgt = BitVec.ofNat 6 (8 * src.toNat + tgt.toNat) := by
  have hsrc : src.toNat < 8 := src.isLt
  have htgt : tgt.toNat < 8 := tgt.isLt
  apply BitVec.eq_of_toNat_eq
  calc (src ++ tgt).toNat
      = src.toNat <<< 3 + tgt.toNat := by rw [BitVec.toNat_append, Nat.shiftLeft_add_eq_or_of_lt htgt]
    _ = 8 * src.toNat + tgt.toNat := by rw [Nat.shiftLeft_eq, Nat.mul_comm]
    _ = (BitVec.ofNat 6 (8 * src.toNat + tgt.toNat)).toNat := by rw [BitVec.toNat_ofNat, Nat.mod_eq_of_lt (by omega)]

/-- Settles O13: the next working matrix is the old one with its target row set, so the row clauses are reads after one
write; no input word decodes to ROWXOR. -/
theorem rowXorReplacesTargetRow : Obligations.RowXorReplacesTargetRow := by
  intro s M src tgt hs ht hconv
  have hs6 : src.toNat < 6 := Nat.lt_succ_of_le hs
  have ht6 : tgt.toNat < 6 := Nat.lt_succ_of_le ht
  refine ⟨_, exec_rowxor_inRange s M src tgt hs6 ht6 hconv, ?_, fun j hj => ?_, ?_, fun w hw => ?_⟩
  · exact Vector.getElem_set_self ht6
  · exact Vector.getElem_set_ne ht6 j.isLt hj.symm
  · rw [encode, rowIndex_append_eq_ofNat]
  · exact decodeCmd_ne_rowxor w src tgt (Except.ok.inj hw)

end Sys2Proof.Machine
end

section
/-! PROOFS. PCDERIVE (rule R77): the elements of each matrix it is made of, then the blocks of `H = [P^T | I_4]`. -/

namespace Sys2Proof.Machine

/-! ### Elements of the matrix operations -/

@[simp] theorem bit_parityBlock (G : GenMatrix) (j : Fin 6) (c : Fin 4) :
    (parityBlock G).bit j c = G.bit j (Fin.natAdd 6 c) := by
  simp [BMat.bit, parityBlock]

@[simp] theorem bit_transpose {a b : Nat} (M : BMat a b) (i : Fin b) (t : Fin a) : (transpose M).bit i t = M.bit t i := by
  simp [BMat.bit, transpose, col]

@[simp] theorem bit_identity {m : Nat} (t u : Fin m) : (identity m).bit t u = decide (t = u) := by
  simp [BMat.bit, identity]

/-- The columns of `[A | B]` below the width of `A` are those of `A` (rule R8). -/
theorem bit_beside_of_lt {a b c : Nat} (A : BMat a b) (B : BMat a c) (t : Fin a) (i : Fin (c + b)) (h : i.val < b) :
    (beside A B).bit t i = A.bit t ⟨i, h⟩ := by
  simp [BMat.bit, beside, BitVec.getElem_append, h]

/-- The other columns of `[A | B]` are those of `B` (rule R8). -/
theorem bit_beside_of_ge {a b c : Nat} (A : BMat a b) (B : BMat a c) (t : Fin a) (i : Fin (c + b)) (h : b ≤ i.val) :
    (beside A B).bit t i = B.bit t ⟨i - b, by omega⟩ := by
  simp [BMat.bit, beside, BitVec.getElem_append, Nat.not_lt.mpr h]

/-! ### The two blocks of `H` -/

/-- The left block of `H` is `P^T` (rule R77). -/
theorem bit_pcDerive_left (G : GenMatrix) (t : Fin 4) (j : Fin 6) :
    (pcDerive G).bit t (Fin.castLE (by omega) j) = (parityBlock G).bit j t := by
  rw [pcDerive, bit_beside_of_lt _ _ _ _ j.isLt, bit_transpose]
  rfl

/-- The right block of `H` is `I_4` (rule R77). -/
theorem bit_pcDerive_right (G : GenMatrix) (t u : Fin 4) : (pcDerive G).bit t (Fin.natAdd 6 u) = decide (u = t) := by
  rw [pcDerive, bit_beside_of_ge _ _ _ _ (Nat.le_add_right 6 u), bit_identity]
  simp [Fin.ext_iff, eq_comm]

/-- A column of the left block of `H` is a row of `P` (rule R77). -/
theorem col_pcDerive_left (G : GenMatrix) (j : Fin 6) :
    col (pcDerive G) (Fin.castLE (by omega) j) = (parityBlock G)[j] := by
  ext t ht
  rw [getElem_col, bit_pcDerive_left]
  rfl

/-- A column of the right block of `H` is a unit sequence (rule R77). -/
theorem col_pcDerive_right (G : GenMatrix) (u : Fin 4) :
    col (pcDerive G) (Fin.natAdd 6 u) = BitVec.ofFnLE fun t => decide (t = u) := by
  ext t ht
  rw [getElem_col, bit_pcDerive_right]
  simp [eq_comm]

/-- Settles O24: the elements of `P`, of the two blocks of `H` and of their columns, one lemma each. -/
theorem pcDeriveBlocks : Obligations.PcDeriveBlocks := by
  intro G
  refine ⟨bit_parityBlock G, fun t j => ?_, bit_pcDerive_right G, col_pcDerive_left G, col_pcDerive_right G⟩
  rw [bit_pcDerive_left, bit_parityBlock]

end Sys2Proof.Machine
end

section
/-! PROOFS. The two error responses (rules R117, R118, R120, R123): what the checks of a call answer when one of them fails,
and the output words of those answers. -/

namespace Sys2Proof.Machine

/-- The first check (rule R118): in FAULT no operand is looked at. -/
theorem checkedCall_fault (n : Nat) (seq : Operand) (f : GenMatrix → CheckMatrix → Response) :
    checkedCall .fault n seq f = .rejected .configFault := rfl

/-- The second check (rule R117): in READY the operand must have the required length. -/
theorem checkedCall_ready_of_len_ne (G : GenMatrix) (H : CheckMatrix) {n : Nat} {seq : Operand}
    (f : GenMatrix → CheckMatrix → Response) (h : seq.len ≠ n) :
    checkedCall (.ready G H) n seq f = .rejected .invalidLength := if_neg h

/-- A length field that is not `n` gives an operand that has not length `n` (rule R43). -/
theorem operand_len_ne {len n : BitVec 4} (data : BitVec 15) (h : len ≠ n) : (operand len data).len ≠ n.toNat :=
  fun hlen => h (BitVec.eq_of_toNat_eq hlen)

/-- `ConfigFault` as an output word, in FAULT (rule R123). -/
theorem configFault_render : (Response.rejected .configFault).render Coder.fault.phase = 0x38000#18 := by decide

/-- `InvalidLength` as an output word, in READY (rule R123). -/
theorem invalidLength_render (G : GenMatrix) (H : CheckMatrix) :
    (Response.rejected .invalidLength).render (Coder.ready G H).phase = 0x14000#18 := by
  rw [Coder.phase_ready]
  decide

/-- Settles O29: each call is a checked call, so the check that fails gives its answer, and a call writes `out` only. -/
theorem rejectedCallsAnswerTheirCode : Obligations.RejectedCallsAnswerTheirCode := by
  intro s len data
  refine ⟨fun hc => ⟨?_, ?_⟩, fun G H hc => ⟨fun hlen => ?_, fun hlen => ?_⟩⟩
  · rw [exec, execEncode_of_coder s _ _ _ hc, encodeCall, checkedCall_fault, configFault_render]
  · rw [exec, execDecode_of_coder s _ _ _ hc, decodeCall, checkedCall_fault, configFault_render]
  · have hne : (operand len data).len ≠ 6 := operand_len_ne data hlen
    rw [exec, execEncode_of_coder s _ _ _ hc, encodeCall, checkedCall_ready_of_len_ne G H _ hne, invalidLength_render]
  · have hne : (operand len data).len ≠ 11 := operand_len_ne data hlen
    rw [exec, execDecode_of_coder s _ _ _ hc, decodeCall, checkedCall_ready_of_len_ne G H _ hne, invalidLength_render]

end Sys2Proof.Machine
end

section
/-! PROOFS. ENCODE (rule R86): the lanes and the control fields of its output word, the products and the parity as XORs of
listed bits, and its input word. -/

namespace Sys2Proof.Machine

/-! ### The output word of an encoded word -/

/-- Lanes 0 to 10 carry the encoded word (rule R46). -/
theorem getElem_encodedWord (e : CodedWord) (i : Nat) (h : i < 11) : (encodedWord e)[i] = e[i] := by
  rw [encodedWord_eq, Response.render, ← BitVec.getLsbD_eq_getElem, getLsbD_outWord, if_pos h,
    BitVec.getLsbD_eq_getElem h]

/-- The control fields: `rsp_valid` is 1 and every other one is 0 (rule R46). -/
theorem control_encodedWord (e : CodedWord) : (encodedWord e).extractLsb' 11 7 = 0b0100000#7 := by
  rw [encodedWord_eq, Response.render]
  ext i hi
  rw [BitVec.getElem_extractLsb', getLsbD_outWord]
  interval_cases i <;> simp

/-! ### The encoded word -/

/-- The first ten bits of an encoded word are the product `VMUL(s, G)` (rule R86). -/
theorem getElem_encodeWord_of_lt (G : GenMatrix) (v : SourceWord) (i : Nat) (h : i < 10) :
    (encodeWord G v)[i] = (vmul v G)[i] := by
  rw [← bodyOf_encodeWord G v, bodyOf, BitVec.getElem_setWidth, BitVec.getLsbD_eq_getElem]

/-- Bit 10 of an encoded word is the parity of its body (rule R86). -/
theorem getElem_encodeWord_ten (G : GenMatrix) (v : SourceWord) :
    (encodeWord G v)[10] = xorRed (bodyOf (encodeWord G v)) := by
  rw [bodyOf_encodeWord]
  simp [encodeWord, BitVec.getElem_cons]

/-- The parity of a body as the XOR of the ten bits it keeps (rules R61 and R97). -/
theorem xorRed_bodyOf (e : CodedWord) :
    xorRed (bodyOf e) = xorList [e[0], e[1], e[2], e[3], e[4], e[5], e[6], e[7], e[8], e[9]] := by
  rw [xorRed, xorUpTo_eq_xorList]
  simp [List.range_succ, bodyOf, BitVec.getLsbD_eq_getElem]

/-- One sum of products: six data lanes against a column of `G` (rules R62 and R86). -/
theorem dot_setWidth_col (data : BitVec 15) (G : GenMatrix) (i : Fin 10) :
    dot (data.setWidth 6) (col G i) = xorList [data[0] && G.bit 0 i, data[1] && G.bit 1 i, data[2] && G.bit 2 i,
      data[3] && G.bit 3 i, data[4] && G.bit 4 i, data[5] && G.bit 5 i] := by
  rw [dot_eq, xorUpTo_eq_xorList]
  simp [List.range_succ, BitVec.getLsbD_eq_getElem]

/-! ### The input word -/

/-- An input word built from its fields, read bit by bit (rule R41). -/
theorem getElem_cmdWord (r v o : Bool) (len : BitVec 4) (data : BitVec 15) (i : Nat) (h : i < 22) :
    (cmdWord r v o len data)[i] =
      if i < 15 then data.getLsbD i
      else if i < 19 then len.getLsbD (i - 15)
      else if i = 19 then o else if i = 20 then v else (decide (i = 21) && r) := by
  rw [← BitVec.getLsbD_eq_getElem h, getLsbD_cmdWord]

theorem len_cmdWord (r v o : Bool) (len : BitVec 4) (data : BitVec 15) : InWord.len (cmdWord r v o len data) = len :=
  inWord_len_eq fun i => by simp [getElem_cmdWord, show 15 + i.val < 19 by omega]

theorem data_cmdWord (r v o : Bool) (len : BitVec 4) (data : BitVec 15) : InWord.data (cmdWord r v o len data) = data :=
  inWord_data_eq fun i => by simp [getElem_cmdWord]

/-- An input word with `rst = 0`, `valid = 1` and `op = 0` decodes to ENCODE of its other two fields (rule R41). -/
theorem decodeCmd_cmdWord_encode (len : BitVec 4) (data : BitVec 15) :
    decodeCmd (cmdWord false true false len data) = .encode len data := by
  have hrst : (cmdWord false true false len data)[21] = false := by simp [getElem_cmdWord]
  have hvalid : (cmdWord false true false len data)[20] = true := by simp [getElem_cmdWord]
  have hop : (cmdWord false true false len data)[19] = false := by simp [getElem_cmdWord]
  rw [decodeCmd_encode _ hrst hvalid hop, len_cmdWord, data_cmdWord]

/-- The three control bits of ENCODE in front of its two operand fields (rule R41). -/
theorem append_eq_cmdWord_encode (len : BitVec 4) (data : BitVec 15) :
    0b010#3 ++ len ++ data = cmdWord false true false len data := rfl

/-- Settles O28: the answer is the encoded word of the product, read lane by lane. -/
theorem encodeMultipliesByGenerator : Obligations.EncodeMultipliesByGenerator := by
  intro s G H data hc
  refine ⟨_, exec_encode_ready s G H data hc, control_encodedWord _, fun i => ?_, ?_, ?_⟩
  · rw [getElem_encodedWord _ _ (by omega), getElem_encodeWord_of_lt _ _ _ i.isLt, getElem_vmul, dot_setWidth_col]
  · simpa [getElem_encodedWord, xorRed_bodyOf] using getElem_encodeWord_ten G (data.setWidth 6)
  · rw [decode, append_eq_cmdWord_encode, decodeCmd_cmdWord_encode]

end Sys2Proof.Machine
end

section
/-! PROOFS. DECODE (rules R96 to R107): the syndrome as XORs of listed bits, the columns element by element, the answer
for each result of the classifier, and the input word; and IDLE (rule R112). -/

namespace Sys2Proof.Machine

/-! ### Received words and bodies -/

/-- The body of a received word is its first ten bits, whatever bit 10 is (rule R97). -/
theorem bodyOf_cons (b : Bool) (body : Body) : bodyOf (BitVec.cons b body) = body :=
  BitVec.setWidth_cons

/-- The decoder reads a received word through its body alone (rules R101 to R103 and R107). -/
theorem decodeWord_congr (H : CheckMatrix) {rw rw' : CodedWord} (h : bodyOf rw = bodyOf rw') :
    decodeWord H rw = decodeWord H rw' := by
  rw [decodeWord, decodeWord, h]

/-- The payload of the body of an operand is its first six lanes (rules R97 and R101). -/
theorem payloadOf_bodyOf_setWidth (d : BitVec 15) : payloadOf (bodyOf (d.setWidth 11)) = d.setWidth 6 := by
  ext j hj
  simp [payloadOf, bodyOf]

/-- Inverting bit `p` of a body inverts bit `p` of the payload, which has no such bit at `p ≥ 6` (rule R102). -/
theorem getElem_payloadOf_flipBit (body : Body) (p : Fin 10) (j : Nat) (h : j < 6) :
    (payloadOf (flipBit body p))[j] = ((payloadOf body)[j] ^^ decide (j = p.val)) := by
  have h10 : j < 10 := by omega
  simp [payloadOf, flipBit, unitBody, BitVec.getLsbD_eq_getElem, h10, Fin.ext_iff]

/-- The corrected payload of an operand, by its lanes (rules R97 and R102). -/
theorem getElem_payloadOf_flipBit_lanes (data : BitVec 15) (p : Fin 10) (j : Fin 6) :
    (payloadOf (flipBit (bodyOf (data.setWidth 11)) p))[j] = (data[j.val] ^^ decide (j.val = p.val)) := by
  have hlane : (data.setWidth 6)[j.val] = data[j.val] := by
    rw [BitVec.getElem_setWidth, BitVec.getLsbD_eq_getElem]
  rw [Fin.getElem_fin, getElem_payloadOf_flipBit _ p j.val j.isLt, payloadOf_bodyOf_setWidth, hlane]

/-! ### Syndromes and columns -/

/-- One sum of products: a row of `H` against ten data lanes (rules R62 and R96). -/
theorem dot_row_bodyOf (H : CheckMatrix) (data : BitVec 15) (t : Fin 4) :
    dot H[t] (bodyOf (data.setWidth 11)) = xorList [data[0] && H.bit t 0, data[1] && H.bit t 1, data[2] && H.bit t 2,
      data[3] && H.bit t 3, data[4] && H.bit t 4, data[5] && H.bit t 5, data[6] && H.bit t 6, data[7] && H.bit t 7,
      data[8] && H.bit t 8, data[9] && H.bit t 9] := by
  rw [dot_comm, dot_eq, xorUpTo_eq_xorList]
  simp [List.range_succ, bodyOf, BMat.bit, BitVec.getLsbD_eq_getElem]

/-- A bit sequence with the listed sums of products is the syndrome of the first ten lanes (rules R96 and R97). -/
theorem eq_syndrome_of_lanes {H : CheckMatrix} {data : BitVec 15} {syn : Syndrome}
    (h : ∀ t : Fin 4, syn[t] = xorList [data[0] && H.bit t 0, data[1] && H.bit t 1, data[2] && H.bit t 2,
      data[3] && H.bit t 3, data[4] && H.bit t 4, data[5] && H.bit t 5, data[6] && H.bit t 6, data[7] && H.bit t 7,
      data[8] && H.bit t 8, data[9] && H.bit t 9]) :
    syn = syndrome H (bodyOf (data.setWidth 11)) := by
  ext t ht
  rw [syndrome, getElem_mvmul]
  exact (h ⟨t, ht⟩).trans (dot_row_bodyOf H data ⟨t, ht⟩).symm

/-- A column equals a syndrome when their four elements do (rule R8). -/
theorem col_eq_iff {H : CheckMatrix} {p : Fin 10} {syn : Syndrome} :
    col H p = syn ↔ ∀ t : Fin 4, H.bit t p = syn[t] := by
  constructor
  · rintro rfl t
    exact (getElem_col H p t.val t.isLt).symm
  · intro h
    ext t ht
    rw [getElem_col]
    exact h ⟨t, ht⟩

/-- A column differs from a syndrome when one of their four elements does (rule R8). -/
theorem col_ne_iff {H : CheckMatrix} {p : Fin 10} {syn : Syndrome} :
    col H p ≠ syn ↔ ∃ t : Fin 4, H.bit t p ≠ syn[t] := by
  rw [Ne, col_eq_iff, not_forall]

/-! ### The answer for each result of the classifier -/

theorem decodeWord_of_valid {H : CheckMatrix} {rw : CodedWord} (h : classify H (syndrome H (bodyOf rw)) = .valid) :
    decodeWord H rw = ⟨some (payloadOf (bodyOf rw)), .valid⟩ := by
  simp only [decodeWord, h]

theorem decodeWord_of_corrected {H : CheckMatrix} {rw : CodedWord} {p : Fin 10}
    (h : classify H (syndrome H (bodyOf rw)) = .corrected p) :
    decodeWord H rw = ⟨some (payloadOf (flipBit (bodyOf rw) p)), .corrected⟩ := by
  simp only [decodeWord, h]

theorem decodeWord_of_uncorrectable {H : CheckMatrix} {rw : CodedWord}
    (h : classify H (syndrome H (bodyOf rw)) = .uncorrectable) : decodeWord H rw = ⟨none, .uncorrectable⟩ := by
  simp only [decodeWord, h]

/-- DECODE of a received word in READY (rule R103). -/
theorem exec_decOf_ready (s : State) (G : GenMatrix) (H : CheckMatrix) (rw : CodedWord)
    (h : s.coder = some (.ready G H)) :
    exec (decOf rw) s = .next { s with out := some ((Response.decoded (decodeWord H rw)).render false) } := by
  have hwidth : (rw.setWidth 15).setWidth 11 = rw := BitVec.setWidth_setWidth_of_le rw (by decide)
  rw [decOf, exec_decode_ready s G H _ h, hwidth]

/-! ### The input word -/

/-- An input word with `rst = 0`, `valid = 1` and `op = 1` decodes to DECODE of its other two fields (rule R41). -/
theorem decodeCmd_cmdWord_decode (len : BitVec 4) (data : BitVec 15) :
    decodeCmd (cmdWord false true true len data) = .decode len data := by
  have hrst : (cmdWord false true true len data)[21] = false := by simp [getElem_cmdWord]
  have hvalid : (cmdWord false true true len data)[20] = true := by simp [getElem_cmdWord]
  have hop : (cmdWord false true true len data)[19] = true := by simp [getElem_cmdWord]
  rw [decodeCmd_decode _ hrst hvalid hop, len_cmdWord, data_cmdWord]

/-- The three control bits of DECODE in front of its two operand fields (rule R41). -/
theorem append_eq_cmdWord_decode (len : BitVec 4) (data : BitVec 15) :
    0b011#3 ++ len ++ data = cmdWord false true true len data := rfl

/-! ### The statements -/

/-- Settles O36: the listed XORs are the syndrome, the premise of each clause is one result of the classifier, and the
decoder answers that result with the word of rule R104. -/
theorem decodeClassifiesSyndrome : Obligations.DecodeClassifiesSyndrome := by
  intro s G H data syn hc hsyn
  obtain rfl : syn = syndrome H (bodyOf (data.setWidth 11)) := eq_syndrome_of_lanes hsyn
  rw [exec_decode_ready s G H data hc]
  refine ⟨fun hzero => ?_, fun p hne hcol hleast => ?_, fun hne hnone => ?_, ?_⟩
  · have hclass : classify H _ = .valid := classify_eq_valid.mpr hzero
    rw [decodeWord_of_valid hclass, ← validWord_eq, payloadOf_bodyOf_setWidth, validWord]
  · have hclass : classify H _ = .corrected p :=
      classify_eq_corrected.mpr ⟨hne, col_eq_iff.mpr hcol, fun q hq => col_ne_iff.mpr (hleast q hq)⟩
    refine ⟨_, getElem_payloadOf_flipBit_lanes data p, ?_⟩
    rw [decodeWord_of_corrected hclass, ← correctedWord_eq, correctedWord]
  · have hclass : classify H _ = .uncorrectable :=
      classify_eq_uncorrectable.mpr ⟨hne, fun p => col_ne_iff.mpr (hnone p)⟩
    rw [decodeWord_of_uncorrectable hclass, ← uncorrectableWord_eq, uncorrectableWord]
  · rw [decode, append_eq_cmdWord_decode, decodeCmd_cmdWord_decode]

/-- Settles O40: the two received words have one body, and the decoder reads nothing else of them. -/
theorem overallParityBitHasNoEffect : Obligations.OverallParityBitHasNoEffect := by
  intro s G H body hc
  have hbody : bodyOf (BitVec.cons false body) = bodyOf (BitVec.cons true body) := by rw [bodyOf_cons, bodyOf_cons]
  refine ⟨?_, _, answer_decOf s G H _ hc⟩
  rw [exec_decOf_ready s G H _ hc, exec_decOf_ready s G H _ hc, decodeWord_congr H hbody]

/-- Settles O45: IDLE writes the output word of `silent`, and `rst = 0` with `valid = 0` is IDLE. -/
theorem idleShowsFaultOnly : Obligations.IdleShowsFaultOnly := by
  intro s
  refine ⟨fun G H hc => ?_, fun hc => ?_, fun w hrst hvalid => ?_⟩
  · rw [exec, execIdle_of_coder s _ hc, silent_render_ready]
  · rw [exec, execIdle_of_coder s _ hc, silent_render_fault]
  · rw [decode, decodeCmd_not_valid w hrst hvalid]

end Sys2Proof.Machine
end

section
/-! PROOFS. Where a step is defined (rules R25 and R128): an instruction of a port has a next state once `(phase, G, H)`
holds a value, before that CONSTRUCT alone has one, and the words with `rst = 1` are CONSTRUCT's. -/

namespace Sys2Proof.Machine

/-- After a reset every instruction that a port can present gives a next state, in READY and FAULT alike (rule R128). -/
theorem exec_next_of_coder (i : Instr) (s : State) (c : Coder) (hc : s.coder = some c)
    (hport : ∀ src tgt, i ≠ .rowxor src tgt) : ∃ t, exec i s = .next t := by
  cases i with
  | construct => exact ⟨_, execConstruct_eq s⟩
  | idle => exact ⟨_, execIdle_of_coder s c hc⟩
  | encode len data => exact ⟨_, execEncode_of_coder s c len data hc⟩
  | decode len data => exact ⟨_, execDecode_of_coder s c len data hc⟩
  | rowxor src tgt => exact absurd rfl (hport src tgt)

/-- Before the first reset every instruction that a port can present, CONSTRUCT apart, is refused (rule R25). -/
theorem exec_refused_of_none (i : Instr) (s : State) (hc : s.coder = none) (hcon : i ≠ .construct)
    (hport : ∀ src tgt, i ≠ .rowxor src tgt) : exec i s = .refused .beforeReset := by
  cases i with
  | construct => exact absurd rfl hcon
  | idle => exact execIdle_of_none s hc
  | encode len data => exact execEncode_of_none s len data hc
  | decode len data => exact execDecode_of_none s len data hc
  | rowxor src tgt => exact absurd rfl (hport src tgt)

/-- Only the words with `rst = 1` are CONSTRUCT (rule R41); `decodeCmd_rst` is the other direction. -/
theorem decodeCmd_ne_construct (w : InWord) (hrst : w[21] = false) : decodeCmd w ≠ .construct := by
  cases hvalid : w[20] with
  | false => simp [decodeCmd_not_valid w hrst hvalid]
  | true =>
    cases hop : w[19] with
    | false => simp [decodeCmd_encode w hrst hvalid hop]
    | true => simp [decodeCmd_decode w hrst hvalid hop]

/-- Settles O46: a step is `exec` of a port's instruction, so `(phase, G, H)` and `rst` decide whether it is defined; the
type of model faults is empty (rules R127 and R128), so no step ends in one. -/
theorem stepIsTotalAfterReset : Obligations.StepIsTotalAfterReset := by
  refine ⟨fun s w rest c hin hc => ?_, fun s w rest hin hc => ⟨fun hrst => ?_, fun hrst => ?_⟩, fun s r => nomatch r⟩
  · rw [step_of_inputs s w rest hin]
    exact exec_next_of_coder _ _ c hc (decodeCmd_ne_rowxor w)
  · exact ⟨_, step_of_rst s w rest hin hrst⟩
  · rw [step_of_inputs s w rest hin]
    exact exec_refused_of_none _ _ hc (decodeCmd_ne_construct w hrst) (decodeCmd_ne_rowxor w)

end Sys2Proof.Machine
end

section
/-! PROOFS. The decoder and the encoder as inverses (rules R41, R48, R49, R51): a word is its five fields, each row of the
opcode map is one branch of the decoder, and an operation-list entry is its two row indices. -/

namespace Sys2Proof.Machine

/-! ### Operation-list entries -/

/-- The two indices of an entry built from them (rule R48). -/
theorem src_append (src tgt : RowIndex) : OpEntry.src (src ++ tgt) = src := by
  rw [OpEntry.src]
  revert src tgt
  decide

theorem tgt_append (src tgt : RowIndex) : OpEntry.tgt (src ++ tgt) = tgt := by
  rw [OpEntry.tgt]
  revert src tgt
  decide

/-- An entry is its two indices (rule R48). -/
theorem src_append_tgt (e : OpEntry) : OpEntry.src e ++ OpEntry.tgt e = e := by
  rw [OpEntry.src, OpEntry.tgt]
  revert e
  decide

theorem inRange_iff (r : RowIndex) : RowIndex.inRange r = true ↔ r.toNat < 6 := by
  rw [RowIndex.inRange, decide_eq_true_iff]
  omega

/-- An entry whose indices name rows is ROWXOR of them (rule R48). -/
theorem decodeOp_of_inRange {e : OpEntry} (hs : (OpEntry.src e).toNat < 6) (ht : (OpEntry.tgt e).toNat < 6) :
    decodeOp e = .ok (.rowxor (OpEntry.src e) (OpEntry.tgt e)) := by
  rw [decodeOp, (inRange_iff _).mpr hs, (inRange_iff _).mpr ht]
  rfl

/-- An entry with an index above 5 is reserved (rule R50). -/
theorem decodeOp_of_reserved {e : OpEntry} (h : ¬ ((OpEntry.src e).toNat < 6 ∧ (OpEntry.tgt e).toNat < 6)) :
    decodeOp e = .error .reservedRowIndex := by
  rw [decodeOp, if_neg]
  rwa [Bool.and_eq_true, inRange_iff, inRange_iff]

/-- An entry that decodes is ROWXOR of two rows that exist (rules R48 and R50). -/
theorem decodeOp_eq_ok {e : OpEntry} {i : Instr} (h : decodeOp e = .ok i) :
    (OpEntry.src e).toNat < 6 ∧ (OpEntry.tgt e).toNat < 6 ∧ i = .rowxor (OpEntry.src e) (OpEntry.tgt e) := by
  by_cases hr : (OpEntry.src e).toNat < 6 ∧ (OpEntry.tgt e).toNat < 6
  · rw [decodeOp_of_inRange hr.1 hr.2] at h
    exact ⟨hr.1, hr.2, (Except.ok.inj h).symm⟩
  · rw [decodeOp_of_reserved hr] at h
    cases h

/-! ### Input words -/

/-- Settles O5: a reset or idle word decodes by its control bits, a call gives its two operand fields back, and the entry of
a well-formed ROWXOR gives its two indices back. -/
theorem decodeOfEncodeIsIdentity : Obligations.DecodeOfEncodeIsIdentity := by
  intro i hwf
  cases i with
  | construct => rw [encode, decode, decodeCmd_rst _ (by simp [getElem_cmdWord])]
  | idle => rw [encode, decode, decodeCmd_not_valid _ (by simp [getElem_cmdWord]) (by simp [getElem_cmdWord])]
  | encode len data => rw [encode, decode, decodeCmd_cmdWord_encode]
  | decode len data => rw [encode, decode, decodeCmd_cmdWord_decode]
  | rowxor src tgt =>
    obtain ⟨hs, ht⟩ : src.toNat < 6 ∧ tgt.toNat < 6 := by
      rwa [Instr.wellFormed, Bool.and_eq_true, inRange_iff, inRange_iff] at hwf
    rw [encode, decode, decodeOp_of_inRange (by rwa [src_append]) (by rwa [tgt_append]), src_append, tgt_append]

/-- A word is its five fields (rule R41). -/
theorem cmdWord_fields (w : InWord) :
    cmdWord (InWord.rst w) (InWord.valid w) (InWord.op w) (InWord.len w) (InWord.data w) = w := by
  ext i hi
  rw [getElem_cmdWord _ _ _ _ _ _ hi]
  split
  · simp [InWord.data, *]
  split
  · have hlen : i - 15 < 4 := by omega
    have hbit : 15 + (i - 15) = i := by omega
    simp [InWord.len, hlen, hbit, BitVec.getLsbD_eq_getElem hi]
  · obtain rfl | rfl | rfl : i = 19 ∨ i = 20 ∨ i = 21 := by omega
    all_goals simp [InWord.op, InWord.valid, InWord.rst]

/-- A row's mask and match compare the bits under the mask (rule R49). -/
theorem OpRow.selects_iff_bits (r : OpRow) (w : InWord) :
    r.selects w = true ↔ ∀ i : Fin 22, (w[i] && r.mask[i]) = r.value[i] := by
  rw [OpRow.selects, decide_eq_true_iff]
  constructor
  · intro h i
    rw [← h]
    exact (BitVec.getElem_and i.isLt).symm
  · intro h
    ext i hi
    rw [BitVec.getElem_and]
    exact h ⟨i, hi⟩

/-- The rows of the opcode map by the control bits (rule R49). -/
theorem OpRow.selects_iff (r : OpRow) (w : InWord) :
    r.selects w = true ↔
      match r with
      | .construct => w[21] = true
      | .idle => w[21] = false ∧ w[20] = false
      | .encode => w[21] = false ∧ w[20] = true ∧ w[19] = false
      | .decode => w[21] = false ∧ w[20] = true ∧ w[19] = true := by
  rw [OpRow.selects_iff_bits]
  cases r <;> simp [Fin.forall_fin_succ, OpRow.mask, OpRow.value] <;> tauto

/-- The row of the instruction a word decodes to, by its control bits (rules R41 and R49). -/
theorem row_decodeCmd (w : InWord) :
    (decodeCmd w).row =
      some (if w[21] then .construct else if w[20] then if w[19] then .decode else .encode else .idle) := by
  cases hrst : w[21] with
  | true => rw [decodeCmd_rst w hrst]; rfl
  | false =>
    cases hvalid : w[20] with
    | false => rw [decodeCmd_not_valid w hrst hvalid]; rfl
    | true =>
      cases hop : w[19] with
      | false => rw [decodeCmd_encode w hrst hvalid hop]; rfl
      | true => rw [decodeCmd_decode w hrst hvalid hop]; rfl

/-- Settles O4: both sides say the same of the three control bits. -/
theorem opcodeMapDisjointAndTotal : Obligations.OpcodeMapDisjointAndTotal := by
  intro w r
  rw [OpRow.selects_iff, row_decodeCmd]
  cases w[21] with
  | true => cases r <;> simp
  | false =>
    cases w[20] with
    | false => cases r <;> simp
    | true => cases w[19] <;> cases r <;> simp

/-- The encoder writes an instruction without operands as the match value of its row (rules R49 and R51). -/
theorem encode_construct : encode .construct = .cmd OpRow.construct.value := by decide

theorem encode_idle : encode .idle = .cmd OpRow.idle.value := by decide

/-- A word of a row has the row's match value under its mask (rule R49). -/
theorem and_mask_of_row {w : InWord} {r : OpRow} (h : (decodeCmd w).row = some r) : w &&& r.mask = r.value :=
  of_decide_eq_true ((opcodeMapDisjointAndTotal w r).mpr h)

/-- A word with `rst = 0` and `valid = 1` is written back whole (rules R41 and R51). -/
theorem encode_decodeCmd_of_valid (w : InWord) (hrst : w[21] = false) (hvalid : w[20] = true) :
    encode (decodeCmd w) = .cmd w := by
  have hw := cmdWord_fields w
  rw [InWord.rst, InWord.valid, InWord.op, hrst, hvalid] at hw
  cases hop : w[19] with
  | false =>
    rw [hop] at hw
    rw [decodeCmd_encode w hrst hvalid hop, encode, hw]
  | true =>
    rw [hop] at hw
    rw [decodeCmd_decode w hrst hvalid hop, encode, hw]

/-- Settles O6: a CONSTRUCT or IDLE word is written back as what its row's mask keeps of it, a call's word and an entry are
written back whole. -/
theorem encodeOfDecodeKeepsFields : Obligations.EncodeOfDecodeKeepsFields := by
  refine ⟨fun w i h => ?_, fun e i h => ?_⟩
  · obtain rfl : decodeCmd w = i := Except.ok.inj h
    cases hd : decodeCmd w with
    | construct =>
      have hmask : w &&& 0x200000#22 = OpRow.construct.value := and_mask_of_row (by rw [hd]; rfl)
      rw [encode_construct, hmask]
    | idle =>
      have hmask : w &&& 0x300000#22 = OpRow.idle.value := and_mask_of_row (by rw [hd]; rfl)
      rw [encode_idle, hmask]
    | encode len data =>
      obtain ⟨hrst, hvalid, -⟩ :=
        (OpRow.selects_iff .encode w).mp ((opcodeMapDisjointAndTotal w _).mpr (by rw [hd]; rfl))
      rw [← encode_decodeCmd_of_valid w hrst hvalid, hd]
    | decode len data =>
      obtain ⟨hrst, hvalid, -⟩ :=
        (OpRow.selects_iff .decode w).mp ((opcodeMapDisjointAndTotal w _).mpr (by rw [hd]; rfl))
      rw [← encode_decodeCmd_of_valid w hrst hvalid, hd]
    | rowxor src tgt => exact absurd hd (decodeCmd_ne_rowxor w src tgt)
  · obtain ⟨-, -, rfl⟩ := decodeOp_eq_ok h
    rw [encode, src_append_tgt]

/-- Settles O7: an entry built from two indices decodes by whether both name rows; the 28 are counted. -/
theorem reservedEntriesAreRejected : Obligations.ReservedEntriesAreRejected := by
  refine ⟨fun src tgt hs ht => ?_, fun src tgt h => ?_, by decide⟩
  · rw [← rowIndex_append_eq_ofNat, decode,
      decodeOp_of_inRange (by rw [src_append]; omega) (by rw [tgt_append]; omega), src_append, tgt_append]
  · rw [← rowIndex_append_eq_ofNat, decode, decodeOp_of_reserved]
    rw [src_append, tgt_append]
    omega

/-- Settles O3: the worked words are closed terms of the encoder, the decoder and the field readers. -/
theorem workedEncodings : Obligations.WorkedEncodings := by
  unfold Obligations.WorkedEncodings
  decide

end Sys2Proof.Machine
end

section
/-! PROOFS. The whole machine, one step at a time: the lines of the output table that an answer can be (rule R46), the
invariant, and what a step writes and reads (rules R15, R40, R118, R136). -/

namespace Sys2Proof.Machine

/-! ### Every answer is one line of the table -/

theorem listed_silent (f : Bool) : OutWord.listed (Response.silent.render f) := by
  refine .inl ?_
  simp [Response.render]

theorem listed_encoded (e : CodedWord) : OutWord.listed ((Response.encoded e).render false) := by
  refine .inr (.inr (.inr (.inl ?_)))
  simp [Response.render]

theorem listed_configFault : OutWord.listed ((Response.rejected .configFault).render true) := by
  refine .inr (.inl ?_)
  simp [Response.render, CallError.code]

theorem listed_invalidLength : OutWord.listed ((Response.rejected .invalidLength).render false) := by
  refine .inr (.inr (.inl ?_))
  simp [Response.render, CallError.code]

/-- A payload leaves the five data bits above it zero (rules R46 and R104). -/
theorem extractLsb'_setWidth_payload (p : SourceWord) : (p.setWidth 11).extractLsb' 6 5 = 0#5 := by
  ext i hi
  simp

theorem listed_payload (p : SourceWord) {st : DecodeStatus} (hst : st = .valid ∨ st = .corrected) :
    OutWord.listed ((Response.decoded ⟨some p, st⟩).render false) := by
  refine .inr (.inr (.inr (.inr (.inl ?_))))
  obtain rfl | rfl := hst <;> simp [Response.render, DecodeStatus.code, extractLsb'_setWidth_payload]

theorem listed_uncorrectable : OutWord.listed ((Response.decoded ⟨none, .uncorrectable⟩).render false) := by
  refine .inr (.inr (.inr (.inr (.inr ?_))))
  simp [Response.render, DecodeStatus.code]

/-- Everything the decoder can answer to a received word (rules R101 to R103). -/
theorem decodeWord_cases (H : CheckMatrix) (rw : CodedWord) :
    (∃ p st, (st = .valid ∨ st = .corrected) ∧ decodeWord H rw = ⟨some p, st⟩) ∨
      decodeWord H rw = ⟨none, .uncorrectable⟩ := by
  cases hc : classify H (syndrome H (bodyOf rw)) with
  | valid => exact .inl ⟨_, _, .inl rfl, decodeWord_of_valid hc⟩
  | corrected p => exact .inl ⟨_, _, .inr rfl, decodeWord_of_corrected hc⟩
  | uncorrectable => exact .inr (decodeWord_of_uncorrectable hc)

theorem listed_decodeWord (H : CheckMatrix) (rw' : CodedWord) :
    OutWord.listed ((Response.decoded (decodeWord H rw')).render false) := by
  obtain ⟨p, st, hst, h⟩ | h := decodeWord_cases H rw'
  · rw [h]; exact listed_payload p hst
  · rw [h]; exact listed_uncorrectable

theorem listed_encodeCall (c : Coder) (seq : Operand) : OutWord.listed ((encodeCall c seq).render c.phase) := by
  obtain ⟨rfl, h⟩ | ⟨G, H, rfl, -, h⟩ | ⟨G, H, rfl, -, h⟩ := encodeCall_cases c seq
  · rw [h]; exact listed_configFault
  · rw [h]; exact listed_invalidLength
  · rw [h]; exact listed_encoded _

theorem listed_decodeCall (c : Coder) (seq : Operand) : OutWord.listed ((decodeCall c seq).render c.phase) := by
  obtain ⟨rfl, h⟩ | ⟨G, H, rfl, -, h⟩ | ⟨G, H, rfl, -, h⟩ := decodeCall_cases c seq
  · rw [h]; exact listed_configFault
  · rw [h]; exact listed_invalidLength
  · rw [h]; exact listed_decodeWord H _

/-- The output word of a step is a line of the table (rule R46). -/
theorem step_out_listed {s t : State} (h : step s = .next t) : ∃ o, t.out = some o ∧ OutWord.listed o := by
  obtain ⟨w, rest, -, hexec⟩ := step_next_inputs h
  rcases exec_next_cases hexec with ⟨-, rfl⟩ | ⟨c, -, -, rfl⟩ | ⟨c, l, d, -, -, rfl⟩ | ⟨c, l, d, -, -, rfl⟩ |
    ⟨M, a, b, -, hw, -⟩
  · exact ⟨_, rfl, listed_silent _⟩
  · exact ⟨_, rfl, listed_silent _⟩
  · exact ⟨_, rfl, listed_encodeCall c _⟩
  · exact ⟨_, rfl, listed_decodeCall c _⟩
  · exact absurd hw (decodeCmd_ne_rowxor w a b)

theorem Coder.phase_eq_true_iff (c : Coder) : c.phase = true ↔ c = .fault := by
  cases c <;> simp

/-- Settles O48: the word is listed whatever the step, and its `fault` bit is the phase of the next coder. -/
theorem everyOutputWordIsListed : Obligations.EveryOutputWordIsListed := by
  intro s t h
  obtain ⟨o, hout, hlisted⟩ := step_out_listed h
  obtain ⟨w, rest, c, o', -, ht, -, hfault⟩ := step_cases h
  have hcoder : t.coder = some c := by rw [ht]
  obtain rfl : o' = o := by rw [ht] at hout; exact Option.some.inj hout
  refine ⟨o', hout, hlisted, ?_⟩
  rw [hfault, Coder.phase_eq_true_iff, hcoder, Option.some.injEq]

/-! ### The invariant -/

/-- Settles O50: a step leaves the converter idle and `(phase, G, H)` what the constants give, whether it is CONSTRUCT or
keeps both, and its output word is listed and shows the phase. -/
theorem everyStepKeepsInvariant : Obligations.EveryStepKeepsInvariant := by
  intro s t hinv h
  obtain ⟨o, hout, hlisted⟩ := step_out_listed h
  obtain ⟨w, rest, c, o', -, ht, hkind, hfault⟩ := step_cases h
  have hcfg : t.cfg = s.cfg := by rw [ht]
  have hcoder : t.coder = some c := by rw [ht]
  have hbuilt : c = constructCoder s.cfg := by
    obtain ⟨-, -, hc⟩ | ⟨-, -, hc⟩ := hkind
    · exact hc
    · exact hinv.coder_built c hc
  obtain rfl : o' = o := by rw [ht] at hout; exact Option.some.inj hout
  refine ⟨?_, fun c' hc' => ?_, fun o₁ ho₁ => ?_⟩
  · obtain ⟨-, hconv, -⟩ | ⟨-, hconv, -⟩ := hkind
    · exact hconv
    · rw [hconv, hinv.conv_idle]
  · rw [hcoder] at hc'
    rw [hcfg, ← hbuilt, Option.some.inj hc']
  · rw [hout] at ho₁
    obtain rfl := Option.some.inj ho₁
    exact ⟨hlisted, by rw [hcoder]; rfl, by rw [hfault, State.phase_of_coder t c hcoder]⟩

/-- Settles O49: both states are written out; only the reset state has an output word, that of its reset step. -/
theorem resetMeetsInvariant : Obligations.ResetMeetsInvariant := by
  refine ⟨⟨rfl, fun c hc => (Option.some.inj hc).symm, fun o ho => ?_⟩, fun cfg => ⟨rfl, fun c hc => ?_, fun o ho => ?_⟩⟩
  · obtain rfl := Option.some.inj ho
    exact ⟨listed_silent _, rfl, fault_render _ _⟩
  · exact nomatch hc
  · exact nomatch ho

/-- Under the invariant a step keeps `(phase, G, H)` and the constants: CONSTRUCT builds the same coder again (rules R15
and R136). -/
theorem State.Inv.step_coder {s t : State} {c : Coder} (hinv : s.Inv) (hc : s.coder = some c) (h : step s = .next t) :
    t.coder = some c ∧ t.cfg = s.cfg := by
  obtain ⟨w, rest, c', o, -, ht, hkind, -⟩ := step_cases h
  have hsame : c' = c := by
    obtain ⟨-, -, hc'⟩ | ⟨-, -, hc'⟩ := hkind
    · rw [hc', hinv.coder_built c hc]
    · exact Option.some.inj (hc'.symm.trans hc)
  exact ⟨by rw [ht, hsame], by rw [ht]⟩

/-- Settles O51: the step keeps the coder, and its output word shows the coder's phase. -/
theorem faultPhaseIsPermanent : Obligations.FaultPhaseIsPermanent := by
  intro s t hinv hc h
  obtain ⟨hcoder, hcfg⟩ := hinv.step_coder hc h
  obtain ⟨o, hout, -, hfault⟩ := everyOutputWordIsListed s t h
  exact ⟨hcoder, hcfg, o, hout, hfault.mpr hcoder⟩

/-! ### What a step writes and reads -/

/-- Settles O1: with a word waiting the step is `exec` of its decode; with none it is refused. -/
theorem stepRunsDecodedInstruction : Obligations.StepRunsDecodedInstruction :=
  ⟨step_of_inputs, fun s h => by simp only [step, State.takeInput, h]⟩

/-- Settles O47: the next state of each instruction is the old one with its own fields written. -/
theorem onlyConstructWritesTheMatrices : Obligations.OnlyConstructWritesTheMatrices := by
  intro i s t h
  rcases exec_next_cases h with ⟨rfl, rfl⟩ | ⟨c, -, rfl, rfl⟩ | ⟨c, l, d, -, rfl, rfl⟩ | ⟨c, l, d, -, rfl, rfl⟩ |
    ⟨M, a, b, -, rfl, rfl⟩
  · exact ⟨rfl, rfl, fun hne => absurd rfl hne, by simp, by simp⟩
  · exact ⟨rfl, rfl, fun _ => rfl, fun _ => rfl, by simp⟩
  · exact ⟨rfl, rfl, fun _ => rfl, fun _ => rfl, by simp⟩
  · exact ⟨rfl, rfl, fun _ => rfl, fun _ => rfl, by simp⟩
  · exact ⟨rfl, rfl, fun _ => rfl, by simp, fun _ _ _ => rfl⟩

/-- The instructions of a port read the constants and `(phase, G, H)` and nothing else of the state (rule R40). -/
theorem exec_congr {i : Instr} {s s' t : State} (hcfg : s.cfg = s'.cfg) (hcoder : s.coder = s'.coder)
    (hport : ∀ src tgt, i ≠ .rowxor src tgt) (h : exec i s = .next t) :
    ∃ t', exec i s' = .next t' ∧ t'.coder = t.coder ∧ t'.out = t.out := by
  rcases exec_next_cases h with ⟨rfl, rfl⟩ | ⟨c, hc, rfl, rfl⟩ | ⟨c, l, d, hc, rfl, rfl⟩ | ⟨c, l, d, hc, rfl, rfl⟩ |
    ⟨M, a, b, -, rfl, rfl⟩
  · exact ⟨_, execConstruct_eq s', by rw [hcfg], by rw [hcfg]⟩
  · exact ⟨_, execIdle_of_coder s' c (hcoder ▸ hc), hcoder.symm, rfl⟩
  · exact ⟨_, execEncode_of_coder s' c l d (hcoder ▸ hc), hcoder.symm, rfl⟩
  · exact ⟨_, execDecode_of_coder s' c l d (hcoder ▸ hc), hcoder.symm, rfl⟩
  · exact absurd rfl (hport a b)

/-- Settles O52: both steps run the one decoded instruction, which reads the constants and the coder only. -/
theorem outputDependsOnStateAndInputOnly : Obligations.OutputDependsOnStateAndInputOnly := by
  intro s s' t w rest rest' hcfg hcoder hin hin' h
  rw [step_of_inputs s w rest hin] at h
  rw [step_of_inputs s' w rest' hin']
  exact exec_congr (s := { s with inputs := rest }) (s' := { s' with inputs := rest' }) hcfg hcoder
    (decodeCmd_ne_rowxor w) h

/-! ### CONSTRUCT and the state before it -/

theorem constructCoder_phase_eq_false_iff (cfg : Config) : (constructCoder cfg).phase = false ↔ wfSys cfg = true := by
  cases hwf : wfSys cfg with
  | true =>
    obtain ⟨M, -, -, hc⟩ := constructCoder_of_wfSys hwf
    simp [hc]
  | false => simp [constructCoder_of_not_wfSys hwf]

/-- Settles O19: CONSTRUCT's phase is that of the coder the constants give. -/
theorem readyExactlyWhenWfSys : Obligations.ReadyExactlyWhenWfSys := by
  intro s
  refine ⟨wfSys_iff s.cfg, _, execConstruct_eq s, ?_⟩
  rw [State.phase_of_coder _ _ rfl]
  exact constructCoder_phase_eq_false_iff s.cfg

/-- Settles O20: CONSTRUCT writes what the constants give, so a second one writes the same, and under the invariant it
writes what the state holds already. -/
theorem constructIsHistoryFree : Obligations.ConstructIsHistoryFree := by
  refine ⟨fun s s' hcfg => ⟨_, _, execConstruct_eq s, execConstruct_eq s', by rw [hcfg], by rw [hcfg], execConstruct_eq _⟩,
    fun s c hinv hc => ⟨Response.silent.render (constructCoder s.cfg).phase, ?_, by simp [Response.render]⟩⟩
  rw [exec, execConstruct_eq, ← hinv.coder_built c hc, ← hc, ← hinv.conv_idle]

end Sys2Proof.Machine
end

section
/-! PROOFS. The two products (rules R60 to R64): `xorUpTo` as a fold over the selected indices, the row and column forms of
VMUL and MVMUL, and their linearity. -/

namespace Sys2Proof.Machine

/-- `xorUpTo` as a fold over the indices. -/
theorem xorUpTo_eq_foldl_finRange (f : Nat → Bool) (m : Nat) :
    xorUpTo f m = (List.finRange m).foldl (fun b j => b ^^ f j.val) false := by
  rw [xorUpTo_eq_xorList, xorList, ← List.map_coe_finRange_eq_range, List.map_map, List.foldl_map]
  rfl

/-- One element of an XOR of sequences is the XOR of their elements. -/
theorem getElem_foldl_xor {α : Type} {b : Nat} (f : α → BitVec b) (l : List α) (v : BitVec b) (i : Nat) (hi : i < b) :
    (l.foldl (fun u j => u ^^^ f j) v)[i] = l.foldl (fun x j => x ^^ (f j)[i]) v[i] := by
  induction l generalizing v with
  | nil => rfl
  | cons j l ih => rw [List.foldl_cons, List.foldl_cons, ih, BitVec.getElem_xor]

/-- One sum of products is the XOR of the elements of a column that the sequence selects (rules R60 and R62). -/
theorem dot_col_eq_foldl {a b : Nat} (s : BitVec a) (M : BMat a b) (i : Fin b) :
    dot s (col M i) = ((List.finRange a).filter fun j => s[j]).foldl (fun x j => x ^^ M[j][i]) false := by
  rw [dot_eq, xorUpTo_eq_foldl_finRange, List.foldl_filter]
  congr 1
  funext x j
  rw [getLsbD_col, BitVec.getLsbD_eq_getElem j.isLt]
  cases hs : s[j] <;> simp_all [BMat.bit]

/-- Settles O10: element by element, the sum of products is the XOR over the selected rows. -/
theorem vmulIsXorOfSelectedRows : Obligations.VmulIsXorOfSelectedRows := by
  intro a b s M
  ext i hi
  rw [getElem_vmul, dot_col_eq_foldl, getElem_foldl_xor, BitVec.getElem_zero]
  rfl

/-- The transpose's columns are the rows (rule R77). -/
theorem col_transpose {a b : Nat} (M : BMat a b) (t : Fin a) : col (transpose M) t = M[t] := by
  ext i hi
  rw [getElem_col, bit_transpose]
  rfl

/-- The transpose's rows are the columns (rule R77). -/
theorem getElem_transpose {a b : Nat} (M : BMat a b) (i : Fin b) : (transpose M)[i] = col M i := by
  simp [transpose]

/-- `MVMUL(M, b) = VMUL(b, M^T)` (section 5 of 40_gf2_multiplier.md). -/
theorem mvmul_eq_vmul_transpose {a m : Nat} (M : BMat a m) (b : BitVec m) : mvmul M b = vmul b (transpose M) := by
  ext t ht
  rw [getElem_mvmul, getElem_vmul, col_transpose, dot_comm]
  rfl

/-- Settles O11: MVMUL is VMUL of the transpose, whose rows are the columns. -/
theorem mvmulIsXorOfSelectedColumns : Obligations.MvmulIsXorOfSelectedColumns := by
  intro a m M b
  refine ⟨?_, mvmul_eq_vmul_transpose M b⟩
  rw [mvmul_eq_vmul_transpose, vmulIsXorOfSelectedRows]
  simp only [getElem_transpose]

theorem vmul_xor {a b : Nat} (s s' : BitVec a) (M : BMat a b) : vmul (s ^^^ s') M = vmul s M ^^^ vmul s' M := by
  ext i hi
  rw [BitVec.getElem_xor, getElem_vmul, getElem_vmul, getElem_vmul, dot_xor_left]

theorem mvmul_xor {a m : Nat} (M : BMat a m) (b b' : BitVec m) : mvmul M (b ^^^ b') = mvmul M b ^^^ mvmul M b' := by
  ext t ht
  rw [BitVec.getElem_xor, getElem_mvmul, getElem_mvmul, getElem_mvmul, dot_xor_right]

/-- Settles O12: each element of a product is a sum of products, linear in either factor. -/
theorem productsAreLinear : Obligations.ProductsAreLinear :=
  ⟨fun _ _ => vmul_xor, fun _ _ => mvmul_xor⟩

theorem vmul_zero {a b : Nat} (M : BMat a b) : vmul 0#a M = 0#b := by
  ext i hi
  rw [getElem_vmul, dot_zero_left, BitVec.getElem_zero]

/-! ### Matrices side by side -/

/-- The bits of a concatenation are summed part by part. -/
theorem xorUpTo_add (f : Nat → Bool) (m n : Nat) :
    xorUpTo f (m + n) = (xorUpTo f m ^^ xorUpTo (fun i => f (m + i)) n) := by
  induction n with
  | zero => simp
  | succ n ih => rw [← Nat.add_assoc, xorUpTo_succ, ih, xorUpTo_succ, Bool.xor_assoc]

/-- The dot product of concatenations is the sum of those of the parts (rule R62). -/
theorem dot_append {m n : Nat} (x x' : BitVec n) (y y' : BitVec m) :
    dot (x ++ y) (x' ++ y') = (dot x x' ^^ dot y y') := by
  rw [dot_eq]
  refine (congrArg (xorUpTo _) (Nat.add_comm n m)).trans ?_
  rw [xorUpTo_add, dot_eq x, dot_eq y, Bool.xor_comm]
  congr 1
  · exact xorUpTo_congr fun i _ => by simp [BitVec.getLsbD_append]
  · exact xorUpTo_congr fun i hi => by simp [BitVec.getLsbD_append, hi]

/-- MVMUL of `[A | B]` is the sum of the products with the two parts of the sequence (rules R8 and R64). -/
theorem mvmul_beside {a b c : Nat} (A : BMat a b) (B : BMat a c) (x : BitVec c) (y : BitVec b) :
    mvmul (beside A B) (x ++ y) = mvmul B x ^^^ mvmul A y := by
  ext t ht
  rw [BitVec.getElem_xor, getElem_mvmul, getElem_mvmul, getElem_mvmul, ← dot_append]
  simp [beside]

/-- VMUL by `[A | B]` is the two products side by side (rules R8 and R63). -/
theorem vmul_beside {a b c : Nat} (s : BitVec a) (A : BMat a b) (B : BMat a c) :
    vmul s (beside A B) = vmul s B ++ vmul s A := by
  ext i hi
  rw [getElem_vmul, BitVec.getElem_append]
  split
  · rw [getElem_vmul]
    congr 1
    ext t ht
    rw [getElem_col, getElem_col, bit_beside_of_lt _ _ _ _ ‹i < b›]
  · rw [getElem_vmul]
    congr 1
    ext t ht
    rw [getElem_col, getElem_col, bit_beside_of_ge _ _ _ _ (Nat.le_of_not_lt ‹¬ i < b›)]

theorem vmul_identity {m : Nat} (s : BitVec m) : vmul s (identity m) = s := by
  ext i hi
  have hcol : col (identity m) ⟨i, hi⟩ = BitVec.ofFnLE fun j => decide (j = ⟨i, hi⟩) := by
    ext t ht
    rw [getElem_col, bit_identity]
    simp
  rw [getElem_vmul, hcol, dot_comm, dot_unit]
  rfl

theorem mvmul_identity {m : Nat} (s : BitVec m) : mvmul (identity m) s = s := by
  ext i hi
  have hrow : (identity m)[i] = BitVec.ofFnLE fun j => decide (j = ⟨i, hi⟩) := by
    ext t ht
    simp [identity, eq_comm]
  rw [getElem_mvmul, hrow, dot_unit]
  rfl

end Sys2Proof.Machine
end

section
/-! PROOFS. ROWXOR and CONVERT (rules R70 to R74): what ROWXOR does outside its domain and on one row, CONVERT as a run of
ROWXOR, and the row space of a conversion: a matrix that passes the structural check fixes the row space of its seed. -/

namespace Sys2Proof.Machine

/-! ### ROWXOR -/

/-- ROWXOR answers a matrix exactly on rows that exist (rules R70 and R72). -/
theorem rowXor_eq_some {M M' : GenMatrix} {src tgt : RowIndex} (h : rowXor M src tgt = some M') :
    ∃ (hs : src.toNat < 6) (ht : tgt.toNat < 6), M' = M.set tgt.toNat (M[tgt.toNat] ^^^ M[src.toNat]) := by
  by_cases hr : src.toNat < 6 ∧ tgt.toNat < 6
  · rw [rowXor_inRange M src tgt hr.1 hr.2] at h
    exact ⟨hr.1, hr.2, (Option.some.inj h).symm⟩
  · rw [(rowXor_eq_none M src tgt).mpr hr] at h
    cases h

theorem rowXor_reserved (M : GenMatrix) {src tgt : RowIndex} (h : 6 ≤ src.toNat ∨ 6 ≤ tgt.toNat) :
    rowXor M src tgt = none := by
  rw [rowXor_eq_none]
  omega

/-- Settles O14: an index above 5 gives no matrix; without a working matrix ROWXOR is refused. -/
theorem rowXorOutsideItsDomain : Obligations.RowXorOutsideItsDomain := by
  refine ⟨fun s M src tgt hconv h => ?_, fun s src tgt hconv => ?_⟩
  · rw [exec, execRowxor_working s M src tgt hconv, rowXor_reserved M h]
  · refine execRowxor_refused s src tgt fun M hM => ?_
    obtain h | h := hconv <;> exact nomatch hM.symm.trans h

/-- A row XORed with itself is zero (rule R71 (b)). -/
theorem rowXor_self_row {M M' : GenMatrix} {r : RowIndex} (h : rowXor M r r = some M') :
    ∃ hr : r.toNat < 6, M'[r.toNat] = 0#10 := by
  obtain ⟨hr, -, rfl⟩ := rowXor_eq_some h
  exact ⟨hr, by rw [Vector.getElem_set_self, BitVec.xor_self]⟩

/-- Settles O15: the first half reads the row just written; in the second the source row is not written, so its second XOR
cancels the first. -/
theorem rowXorSelfZeroesElseInvolutive : Obligations.RowXorSelfZeroesElseInvolutive := by
  refine ⟨fun M r hr => ?_, fun M M' src tgt hne h => ?_⟩
  · have hr6 : r.toNat < 6 := Nat.lt_succ_of_le hr
    have hM := rowXor_inRange M r r hr6 hr6
    exact ⟨_, hM, (rowXor_self_row hM).2⟩
  · obtain ⟨hs, ht, rfl⟩ := rowXor_eq_some h
    have hidx : tgt.toNat ≠ src.toNat := fun e => hne (BitVec.eq_of_toNat_eq e.symm)
    rw [rowXor_inRange _ src tgt hs ht, Vector.getElem_set_self, Vector.getElem_set_ne ht hs hidx, Vector.set_set,
      BitVec.xor_assoc, BitVec.xor_self, BitVec.xor_zero, Vector.set_getElem_self]

/-! ### CONVERT -/

theorem convert_cons (M : GenMatrix) (e : OpEntry) (es : List OpEntry) :
    convert M (e :: es) = (rowXor M (OpEntry.src e) (OpEntry.tgt e)).bind fun M' => convert M' es := by
  rw [convert]
  cases rowXor M (OpEntry.src e) (OpEntry.tgt e) <;> rfl

/-- The pass over a list is the passes over its two parts. -/
theorem convert_append (M : GenMatrix) (es es' : List OpEntry) :
    convert M (es ++ es') = (convert M es).bind fun M' => convert M' es' := by
  induction es generalizing M with
  | nil => rfl
  | cons e es ih =>
    rw [List.cons_append, convert_cons, convert_cons, Option.bind_assoc]
    congr 1
    funext M'
    exact ih M'

/-- A pass that succeeds over a list runs each of its entries (rule R72). -/
theorem convert_of_mem {M M' : GenMatrix} {e : OpEntry} {es : List OpEntry} (hmem : e ∈ es)
    (h : convert M es = some M') :
    ∃ N N' rest, rowXor N (OpEntry.src e) (OpEntry.tgt e) = some N' ∧ convert N' rest = some M' := by
  obtain ⟨es₁, es₂, rfl⟩ := List.append_of_mem hmem
  rw [convert_append, Option.bind_eq_some_iff] at h
  obtain ⟨N, -, h⟩ := h
  rw [convert_cons, Option.bind_eq_some_iff] at h
  obtain ⟨N', hN', h⟩ := h
  exact ⟨N, N', es₂, hN', h⟩

/-- A reserved entry anywhere makes the pass `Inconsistent` (rule R72). -/
theorem convert_of_reserved_mem (M : GenMatrix) {e : OpEntry} {es : List OpEntry} (hmem : e ∈ es)
    (he : 6 ≤ (OpEntry.src e).toNat ∨ 6 ≤ (OpEntry.tgt e).toNat) : convert M es = none := by
  rw [Option.eq_none_iff_forall_ne_some]
  intro M' hM'
  obtain ⟨N, N', rest, hN', -⟩ := convert_of_mem hmem hM'
  rw [rowXor_reserved N he] at hN'
  cases hN'

/-- The run of the ROWXOR instructions of a list of entries is the pass over them (rules R70 and R72). -/
theorem execAll_of_decodes {es : List OpEntry} {is : List Instr} {s : State} {M : GenMatrix} (hconv : s.conv = .working M)
    (h : es.map (fun e => decode (.oprom e)) = is.map .ok) :
    ∃ M', convert M es = some M' ∧ execAll s is = .next { s with conv := .working M' } := by
  induction es generalizing is s M with
  | nil =>
    obtain rfl : is = [] := List.map_eq_nil_iff.mp h.symm
    exact ⟨M, rfl, by rw [execAll, ← hconv]⟩
  | cons e es ih =>
    cases is with
    | nil => cases h
    | cons i is =>
      obtain ⟨hdec, hrest⟩ := List.cons.inj h
      obtain ⟨hs, ht, rfl⟩ := decodeOp_eq_ok hdec
      obtain ⟨M', hM', hall⟩ := ih (s := { s with conv := .working _ }) rfl hrest
      refine ⟨M', ?_, ?_⟩
      · rw [convert_cons, rowXor_inRange M _ _ hs ht]
        exact hM'
      · rw [execAll, exec_rowxor_inRange s M _ _ hs ht hconv]
        exact hall

/-- Settles O16: the run by induction over the entries; a reserved entry fails the pass wherever it stands. -/
theorem convertRunsRowXorInOrder : Obligations.ConvertRunsRowXorInOrder := by
  refine ⟨fun es is s M => execAll_of_decodes, fun es M ⟨e, hmem, hrej⟩ => convert_of_reserved_mem M hmem ?_⟩
  by_contra hr
  rw [decode, decodeOp_of_inRange (by omega) (by omega)] at hrej
  cases hrej

/-- Settles O21: the conversion fails, and so does the construction. -/
theorem reservedEntryAnywhereFaults : Obligations.ReservedEntryAnywhereFaults := by
  intro s e hmem he
  have hfault : constructCoder s.cfg = .fault := by
    rw [constructCoder, convert_of_reserved_mem s.cfg.seed hmem he, coderOf]
  exact ⟨_, exec_construct_fault s hfault, rfl, rfl⟩

/-! ### Matrices that pass the structural check -/

/-- A matrix passes the check exactly when it is `[I_6 | P]` (rules R13 and R73). -/
theorem eq_beside_of_sysChk {M : GenMatrix} (h : sysChk M = true) : M = beside (identity 6) (parityBlock M) := by
  rw [sysChk_iff] at h
  ext j hj i hi
  change M.bit ⟨j, hj⟩ ⟨i, hi⟩ = (beside (identity 6) (parityBlock M)).bit ⟨j, hj⟩ ⟨i, hi⟩
  by_cases hlt : i < 6
  · rw [bit_beside_of_lt _ _ _ _ hlt, bit_identity]
    simpa [eq_comm] using h ⟨j, hj⟩ ⟨i, hlt⟩
  · rw [bit_beside_of_ge _ _ _ _ (Nat.le_of_not_lt hlt), bit_parityBlock]
    congr 1
    simp
    omega

/-- A codeword of a checked matrix is the source word followed by its product with `P` (rule R87). -/
theorem vmul_of_sysChk {M : GenMatrix} (h : sysChk M = true) (v : SourceWord) :
    vmul v M = vmul v (parityBlock M) ++ v := by
  rw [eq_beside_of_sysChk h, vmul_beside, vmul_identity, ← eq_beside_of_sysChk h]

theorem payloadOf_append (x : BitVec 4) (v : SourceWord) : payloadOf (x ++ v) = v :=
  BitVec.setWidth_append_eq_right

/-- A codeword carries its source word in its first six bits (rules R87 and R101). -/
theorem payloadOf_vmul {M : GenMatrix} (h : sysChk M = true) (v : SourceWord) : payloadOf (vmul v M) = v := by
  rw [vmul_of_sysChk h, payloadOf_append]

theorem vmul_injective {M : GenMatrix} (h : sysChk M = true) : Function.Injective fun v : SourceWord => vmul v M :=
  Function.LeftInverse.injective (payloadOf_vmul h)

/-- If the sums of rows of a checked matrix are sums of rows of `N`, they are those of `N` one for one: there are as many
source words on either side (the rank argument of rule R71 (b)). -/
theorem SpanIn.exists_bijective {M N : GenMatrix} (hspan : SpanIn M N) (h : sysChk M = true) :
    ∃ u : SourceWord → SourceWord, Function.Bijective u ∧ ∀ v, vmul v M = vmul (u v) N := by
  choose u hu using hspan
  have hinj : Function.Injective u := fun v v' huv => vmul_injective h (by
    change vmul v M = vmul v' M
    rw [hu, hu, huv])
  exact ⟨u, Finite.injective_iff_bijective.mp hinj, hu⟩

/-- Different source words give different sums of rows of `N`. -/
theorem SpanIn.vmul_injective {M N : GenMatrix} (hspan : SpanIn M N) (h : sysChk M = true) :
    Function.Injective fun v : SourceWord => vmul v N := by
  obtain ⟨u, hu, huM⟩ := hspan.exists_bijective h
  intro w w' hw
  obtain ⟨v, rfl⟩ := hu.surjective w
  obtain ⟨v', rfl⟩ := hu.surjective w'
  change vmul (u v) N = vmul (u v') N at hw
  rw [← huM, ← huM] at hw
  rw [Machine.vmul_injective h hw]

theorem SpanIn.symm {M N : GenMatrix} (hspan : SpanIn M N) (h : sysChk M = true) : SpanIn N M := by
  obtain ⟨u, hu, huM⟩ := hspan.exists_bijective h
  intro w
  obtain ⟨v, rfl⟩ := hu.surjective w
  exact ⟨v, (huM v).symm⟩

/-- A matrix with a zero row is not converted into one that passes the check (rule R71 (b)). -/
theorem row_ne_zero_of_spanIn {M N : GenMatrix} (hspan : SpanIn M N) (h : sysChk M = true) (j : Fin 6) : N[j] ≠ 0#10 := by
  intro hzero
  have hunit : (unitSeq j : SourceWord) = 0#6 := hspan.vmul_injective h (by
    change vmul (unitSeq j) N = vmul 0#6 N
    rw [vmul_unitSeq, vmul_zero, hzero])
  have hbit : (unitSeq j : SourceWord)[j.val] = true := by simp [unitSeq]
  rw [hunit, BitVec.getElem_zero] at hbit
  cases hbit

/-- Settles O22: the self XOR leaves a zero row, and no later pass makes such a matrix pass the check. -/
theorem selfXorEntryFaults : Obligations.SelfXorEntryFaults := by
  intro s e hmem hself
  have hfault : constructCoder s.cfg = .fault := by
    cases hc : constructCoder s.cfg with
    | fault => rfl
    | ready G H =>
      obtain ⟨hG, hsys, -⟩ := coderOf_ready hc
      obtain ⟨N, N', rest, hN', hrest⟩ := convert_of_mem hmem hG
      rw [hself] at hN'
      obtain ⟨hr, hzero⟩ := rowXor_self_row hN'
      exact absurd hzero (row_ne_zero_of_spanIn (spanIn_convert hrest) hsys ⟨_, hr⟩)
  exact ⟨_, exec_construct_fault s hfault, rfl, rfl⟩

/-- Two checked matrices with one row space are equal: the left blocks name the rows (rule R74). -/
theorem eq_of_spanIn {M M' : GenMatrix} (hspan : SpanIn M M') (h : sysChk M = true) (h' : sysChk M' = true) : M = M' := by
  ext1 j hj
  obtain ⟨u, hu⟩ := hspan (unitSeq ⟨j, hj⟩)
  have hsource : unitSeq ⟨j, hj⟩ = u := by rw [← payloadOf_vmul h (unitSeq _), hu, payloadOf_vmul h']
  rw [← hsource, vmul_unitSeq, vmul_unitSeq] at hu
  exact hu

/-- The coder that CONSTRUCT leaves (rules R24 and R78). -/
theorem coder_of_exec_construct {s t : State} (h : exec .construct s = .next t) :
    t.coder = some (constructCoder s.cfg) := by
  rw [exec, execConstruct_eq] at h
  cases h
  rfl

/-- Settles O23: both results span the row space of the seed, and a checked matrix is fixed by its row space. -/
theorem matricesDependOnlyOnSeed : Obligations.MatricesDependOnlyOnSeed := by
  intro s s' t t' G G' H H' hseed h hc h' hc'
  obtain ⟨hG, hsys, rfl⟩ := coderOf_ready (Option.some.inj ((coder_of_exec_construct h).symm.trans hc))
  obtain ⟨hG', hsys', rfl⟩ := coderOf_ready (Option.some.inj ((coder_of_exec_construct h').symm.trans hc'))
  have hspan : SpanIn G s.cfg.seed := spanIn_convert hG
  have hspan' : SpanIn G' s.cfg.seed := by
    rw [hseed]
    exact spanIn_convert hG'
  obtain rfl : G = G' := eq_of_spanIn (hspan.trans (hspan'.symm hsys')) hsys hsys'
  exact ⟨rfl, rfl⟩

end Sys2Proof.Machine
end

section
/-! PROOFS. The code (rules R13, R14, R19, R86 to R90): the syndrome of a body is what its check bits differ from those of
its payload, so codewords have syndrome zero; encoded words, their parity and their distance. -/

namespace Sys2Proof.Machine

/-! ### The matrices in READY -/

/-- Settles O25: the matrices are the checked `G` and its `PCDERIVE`, whose blocks are known. -/
theorem readyMatricesHaveSystematicForm : Obligations.ReadyMatricesHaveSystematicForm := by
  intro s G H hinv hc
  obtain ⟨hsys, rfl⟩ := hinv.ready hc
  refine ⟨(sysChk_iff G).mp hsys, fun t j => ?_, bit_pcDerive_right G⟩
  rw [bit_pcDerive_left, bit_parityBlock]

/-- A body is its four check bits above its payload (rules R97 and R101). -/
theorem append_payloadOf (body : Body) : body.extractLsb' 6 4 ++ payloadOf body = body := by
  rw [payloadOf, BitVec.setWidth_eq_extractLsb' (by decide)]
  exact (BitVec.extractLsb'_append_extractLsb'_eq_extractLsb' (start₁ := 0) (start₂ := 6) rfl).trans
    BitVec.extractLsb'_eq_self

/-- The syndrome of a body of two parts: the check bits against those its payload would have (rules R77 and R96). -/
theorem syndrome_append (G : GenMatrix) (x : BitVec 4) (v : SourceWord) :
    syndrome (pcDerive G) (x ++ v) = x ^^^ vmul v (parityBlock G) := by
  have htranspose : mvmul (transpose (parityBlock G)) v = vmul v (parityBlock G) := by
    ext i hi
    rw [getElem_mvmul, getElem_vmul, dot_comm]
    congr 1
    exact getElem_transpose (parityBlock G) ⟨i, hi⟩
  rw [syndrome, pcDerive, mvmul_beside, mvmul_identity, htranspose]

/-- A body of syndrome zero is the codeword of its payload, and codewords have syndrome zero (rule R19). -/
theorem syndrome_eq_zero_iff {G : GenMatrix} (h : sysChk G = true) (body : Body) :
    syndrome (pcDerive G) body = 0#4 ↔ vmul (payloadOf body) G = body := by
  rw [vmul_of_sysChk h]
  conv_lhs => rw [← append_payloadOf body, syndrome_append, BitVec.xor_eq_zero_iff]
  constructor
  · intro hcheck
    rw [← hcheck, append_payloadOf]
  · intro hbody
    conv_lhs => rw [← hbody]
    exact BitVec.extractLsb'_append_eq_left

/-- Rule R19 for the product of any source word. -/
theorem syndrome_vmul {G : GenMatrix} (h : sysChk G = true) (v : SourceWord) : syndrome (pcDerive G) (vmul v G) = 0#4 :=
  (syndrome_eq_zero_iff h _).mpr (by rw [payloadOf_vmul h])

/-- Settles O26: codewords have syndrome zero, and row `j` of `G` is the codeword of a unit sequence. -/
theorem generatorTimesCheckTransposeIsZero : Obligations.GeneratorTimesCheckTransposeIsZero := by
  intro s G H hinv hc
  obtain ⟨hsys, rfl⟩ := hinv.ready hc
  refine ⟨fun j t => ?_, syndrome_vmul hsys⟩
  have hrow : syndrome (pcDerive G) G[j] = 0#4 := by rw [← vmul_unitSeq, syndrome_vmul hsys]
  calc dot G[j] (pcDerive G)[t]
      = (syndrome (pcDerive G) G[j])[t] := by rw [syndrome, dot_comm]; exact (getElem_mvmul _ _ _ t.isLt).symm
    _ = false := by rw [hrow]; exact BitVec.getElem_zero t.isLt

/-! ### The columns of `H` -/

/-- Four bits have at least two ones exactly when they are neither zero nor a unit sequence. -/
theorem two_le_ones_iff (x : BitVec 4) : 2 ≤ ones x ↔ x ≠ 0#4 ∧ ∀ u : Fin 4, x ≠ unitSeq u := by
  revert x
  decide

theorem unitSeq_injective {m : Nat} : Function.Injective (unitSeq : Fin m → BitVec m) := by
  intro p q h
  have hbit : (unitSeq p : BitVec m)[p.val] = (unitSeq q : BitVec m)[p.val] := by rw [h]
  simpa [unitSeq] using hbit

theorem unitSeq_ne_zero {m : Nat} (p : Fin m) : (unitSeq p : BitVec m) ≠ 0#m := by
  intro h
  have hbit : (unitSeq p : BitVec m)[p.val] = (0#m)[p.val] := by rw [h]
  simp [unitSeq] at hbit

/-- An index of a column of `H` is in the left block or in the right one (rule R77). -/
theorem forall_column_iff {p : Fin 10 → Prop} :
    (∀ i, p i) ↔ (∀ j : Fin 6, p (Fin.castLE (by omega) j)) ∧ ∀ u : Fin 4, p (Fin.natAdd 6 u) :=
  ⟨fun h => ⟨fun _ => h _, fun _ => h _⟩, fun ⟨hl, hr⟩ i => Fin.addCases (m := 6) (n := 4) hl hr i⟩

/-- Settles O27: the left columns are the rows of `P`, the right ones the unit sequences, which are distinct and not zero;
what is left to ask of a row of `P` is that it is neither zero nor a unit sequence. -/
theorem columnDistinctnessInTermsOfParityRows : Obligations.ColumnDistinctnessInTermsOfParityRows := by
  intro G
  have hright : ∀ u : Fin 4, col (pcDerive G) (Fin.natAdd 6 u) = unitSeq u := col_pcDerive_right G
  rw [columnsDistinct_iff]
  constructor
  · rintro ⟨hne, hzero⟩
    refine ⟨fun j j' hj => ?_, fun j => ?_⟩
    · rw [← col_pcDerive_left, ← col_pcDerive_left]
      exact hne _ _ fun h => hj (Fin.castLE_injective _ h)
    · rw [two_le_ones_iff, ← col_pcDerive_left]
      refine ⟨hzero _, fun u => ?_⟩
      rw [← hright]
      exact hne _ _ (by simp only [ne_eq, Fin.ext_iff, Fin.val_castLE, Fin.val_natAdd]; omega)
  · rintro ⟨hne, hones⟩
    have hrow : ∀ j : Fin 6, (parityBlock G)[j] ≠ 0#4 ∧ ∀ u : Fin 4, (parityBlock G)[j] ≠ unitSeq u :=
      fun j => (two_le_ones_iff _).mp (hones j)
    simp only [forall_column_iff, col_pcDerive_left, hright]
    refine ⟨⟨fun j => ⟨fun j' h => hne j j' fun e => h (by rw [e]), fun u _ => (hrow j).2 u⟩,
      fun u => ⟨fun j _ => ((hrow j).2 u).symm, fun u' h e => h (by rw [unitSeq_injective e])⟩⟩,
      fun j => (hrow j).1, unitSeq_ne_zero⟩

/-! ### Encoded words -/

/-- The first ten bits of a word (rules R27 and R97). -/
theorem extractLsb'_eq_bodyOf (e : CodedWord) : e.extractLsb' 0 10 = bodyOf e :=
  (BitVec.setWidth_eq_extractLsb' (by decide)).symm

/-- Settles O30: the body of the encoded word is the source word followed by `VMUL(s, P)`. -/
theorem encodedWordIsSystematic : Obligations.EncodedWordIsSystematic := by
  intro s G H v hinv hc
  have hbody : bodyOf (encodeWord G v) = vmul v (parityBlock G) ++ v := by
    rw [bodyOf_encodeWord, vmul_of_sysChk (hinv.ready hc).1]
  refine ⟨_, answer_encOf s G H v hc, ?_, ?_⟩
  · calc (encodeWord G v).extractLsb' 0 6
        = payloadOf (bodyOf (encodeWord G v)) := by
          rw [payloadOf, bodyOf, BitVec.setWidth_setWidth_of_le _ (by decide), BitVec.setWidth_eq_extractLsb' (by decide)]
      _ = v := by rw [hbody, payloadOf_append]
  · calc (encodeWord G v).extractLsb' 6 4
        = (bodyOf (encodeWord G v)).extractLsb' 6 4 := by rw [bodyOf, BitVec.extractLsb'_setWidth_of_le (by decide)]
      _ = vmul v (parityBlock G) := by rw [hbody]; exact BitVec.extractLsb'_append_eq_left

/-- Settles O35: the body of the encoded word is the product, and a unit sequence selects one row. -/
theorem unitEncodingsRecoverGenerator : Obligations.UnitEncodingsRecoverGenerator := by
  intro s G H j hc
  refine ⟨_, answer_encOf s G H _ hc, ?_⟩
  rw [extractLsb'_eq_bodyOf, bodyOf_encodeWord]
  exact vmul_unitSeq G j

theorem xorRed_xor {m : Nat} (x y : BitVec m) : xorRed (x ^^^ y) = (xorRed x ^^ xorRed y) := by
  rw [xorRed, xorRed, xorRed, ← xorUpTo_xor]
  exact xorUpTo_congr fun i _ => BitVec.getLsbD_xor

/-- The ones of a sequence with one more element at its end. -/
theorem ones_cons {m : Nat} (b : Bool) (x : BitVec m) : ones (BitVec.cons b x) = ones x + b.toNat := by
  have hlow : (List.range m).countP (BitVec.cons b x).getLsbD = (List.range m).countP x.getLsbD :=
    List.countP_congr fun i hi => by
      rw [BitVec.getLsbD_cons, if_neg (Nat.ne_of_lt (List.mem_range.mp hi))]
  rw [ones, ones, List.range_succ, List.countP_append, hlow, List.countP_singleton, BitVec.getLsbD_cons, if_pos rfl]
  cases b <;> rfl

/-- The parity bit makes the number of ones of an encoded word even (rule R88). -/
theorem ones_cons_xorRed (x : Body) : ones (BitVec.cons (xorRed x) x) % 2 = 0 := by
  have hparity := xorRed_eq_true_iff x
  rw [ones_cons]
  cases hx : xorRed x with
  | false =>
    have hnot : ¬ ones x % 2 = 1 := by
      rw [← hparity, hx]
      exact Bool.false_ne_true
    simp only [Bool.toNat_false]
    omega
  | true =>
    have hodd : ones x % 2 = 1 := hparity.mp hx
    simp only [Bool.toNat_true]
    omega

/-- Settles O31: the parity bit is the XOR of the other ten. -/
theorem encodedWordHasEvenParity : Obligations.EncodedWordHasEvenParity := by
  intro s G H v hc
  have heven : ones (encodeWord G v) % 2 = 0 := ones_cons_xorRed (vmul v G)
  refine ⟨_, answer_encOf s G H v hc, ?_, heven⟩
  rw [← Bool.not_eq_true, xorRed_eq_true_iff, heven]
  decide

theorem encodeWord_xor (G : GenMatrix) (v v' : SourceWord) :
    encodeWord G (v ^^^ v') = encodeWord G v ^^^ encodeWord G v' := by
  rw [encodeWord, encodeWord, encodeWord, vmul_xor, xorRed_xor, BitVec.cons_xor_cons]

/-- Settles O33: the product and its parity are linear. -/
theorem encodingIsLinear : Obligations.EncodingIsLinear := by
  intro s G H v v' hc
  exact ⟨_, _, answer_encOf s G H v hc, answer_encOf s G H v' hc, by rw [answer_encOf s G H _ hc, encodeWord_xor]⟩

/-! ### The answer for each result of the classifier, as an output word -/

theorem answer_decOf_of_valid {s : State} {G : GenMatrix} {H : CheckMatrix} {rw' : CodedWord}
    (hc : s.coder = some (.ready G H)) (h : classify H (syndrome H (bodyOf rw')) = .valid) :
    answer (decOf rw') s = some (validWord (payloadOf (bodyOf rw'))) := by
  rw [answer_decOf s G H _ hc, decodeWord_of_valid h, validWord_eq]

theorem answer_decOf_of_corrected {s : State} {G : GenMatrix} {H : CheckMatrix} {rw' : CodedWord} {p : Fin 10}
    (hc : s.coder = some (.ready G H)) (h : classify H (syndrome H (bodyOf rw')) = .corrected p) :
    answer (decOf rw') s = some (correctedWord (payloadOf (flipBit (bodyOf rw') p))) := by
  rw [answer_decOf s G H _ hc, decodeWord_of_corrected h, correctedWord_eq]

theorem answer_decOf_of_uncorrectable {s : State} {G : GenMatrix} {H : CheckMatrix} {rw' : CodedWord}
    (hc : s.coder = some (.ready G H)) (h : classify H (syndrome H (bodyOf rw')) = .uncorrectable) :
    answer (decOf rw') s = some uncorrectableWord := by
  rw [answer_decOf s G H _ hc, decodeWord_of_uncorrectable h, uncorrectableWord_eq]

/-! ### The round trip -/

/-- A word whose body is a codeword decodes to that codeword's source word (rules R89 and R109). -/
theorem answer_decOf_of_codeword {s : State} {G : GenMatrix} {H : CheckMatrix} (hinv : s.Inv)
    (hc : s.coder = some (.ready G H)) {rw' : CodedWord} {v : SourceWord} (hbody : bodyOf rw' = vmul v G) :
    answer (decOf rw') s = some (validWord v) := by
  obtain ⟨hsys, rfl⟩ := hinv.ready hc
  have hclass : classify (pcDerive G) (syndrome (pcDerive G) (bodyOf rw')) = .valid := by
    rw [classify_eq_valid, hbody, syndrome_vmul hsys]
  rw [answer_decOf_of_valid hc hclass, hbody, payloadOf_vmul hsys]

/-- Settles O32: the body of an encoded word is the codeword of its source word, which the decoder reads off, so no two
source words have one encoded word. -/
theorem decodeOfEncodeReturnsSourceWord : Obligations.DecodeOfEncodeReturnsSourceWord := by
  intro s G H hinv hc
  obtain ⟨hsys, hH⟩ := hinv.ready hc
  refine ⟨fun v => ⟨?_, _, answer_encOf s G H v hc, answer_decOf_of_codeword hinv hc (bodyOf_encodeWord G v)⟩,
    fun v v' hne heq => hne ?_⟩
  · rw [hH]
    exact syndrome_vmul hsys v
  · rw [answer_encOf s G H v hc, answer_encOf s G H v' hc, Option.some.injEq, encodedWord_inj] at heq
    exact vmul_injective hsys (by
      change vmul v G = vmul v' G
      rw [← bodyOf_encodeWord, ← bodyOf_encodeWord, heq])

/-- Settles O41: bit 10 is no bit of the body. -/
theorem parityBitErrorIsInvisible : Obligations.ParityBitErrorIsInvisible := by
  intro s G H v hinv hc
  have hbody : bodyOf (encodeWord G v ^^^ 0b10000000000#11) = vmul v G := by
    rw [bodyOf_xor, bodyOf_encodeWord]
    exact BitVec.xor_zero
  exact ⟨_, answer_encOf s G H v hc, answer_decOf_of_codeword hinv hc hbody⟩

end Sys2Proof.Machine
end

section
/-! PROOFS. Errors in a received word (rules R98 to R104, R108, R110): the syndrome of a corrupted codeword, what the
decoder answers to it, and how many ones an undetected error has. -/

namespace Sys2Proof.Machine

/-! ### The syndrome of a corrupted codeword -/

theorem syndrome_xor (H : CheckMatrix) (c d : Body) : syndrome H (c ^^^ d) = syndrome H c ^^^ syndrome H d :=
  mvmul_xor H c d

theorem syndrome_unitBody (H : CheckMatrix) (p : Fin 10) : syndrome H (unitBody p) = col H p := mvmul_unitBody H p

theorem syndrome_xor_of_codeword {H : CheckMatrix} {c : Body} (hc : syndrome H c = 0#4) (d : Body) :
    syndrome H (c ^^^ d) = syndrome H d := by
  rw [syndrome_xor, hc, BitVec.zero_xor]

/-- Settles O37: the syndrome is linear, that of a codeword is zero and that of a single error is its column. -/
theorem syndromeOfCorruptedCodeword : Obligations.SyndromeOfCorruptedCodeword := by
  intro H c hc
  refine ⟨syndrome_xor_of_codeword hc, fun p => ?_, fun a b _ => ?_⟩
  · rw [syndrome_xor_of_codeword hc, syndrome_unitBody]
  · rw [syndrome_xor_of_codeword hc, syndrome_xor, syndrome_unitBody, syndrome_unitBody]

theorem syndrome_flipBit (H : CheckMatrix) (body : Body) (p : Fin 10) :
    syndrome H (flipBit body p) = syndrome H body ^^^ col H p := by
  rw [flipBit, syndrome_xor, syndrome_unitBody]

/-- Settles O38: the classifier answers a matching column, so the flip cancels the syndrome; it changes bit `p` alone, which
is no payload bit above 5. -/
theorem correctedBodyIsCodeword : Obligations.CorrectedBodyIsCodeword := by
  intro H body p h
  obtain ⟨-, hcol, -⟩ := classify_eq_corrected.mp h
  refine ⟨hcol, by rw [syndrome_flipBit, hcol, BitVec.xor_self], fun hp => ?_, fun q => ?_⟩
  · ext j hj
    rw [getElem_payloadOf_flipBit _ _ _ hj, decide_eq_false (by omega), Bool.xor_false]
  · simp [flipBit, unitBody]

/-! ### The decoder's answers -/

/-- Settles O39: one answer per result of the classifier, read field by field; the result is VALID exactly for the zero
syndrome. -/
theorem zeroSyndromeExactlyWhenValid : Obligations.ZeroSyndromeExactlyWhenValid := by
  intro s G H rw' hc
  rw [extractLsb'_eq_bodyOf, ← classify_eq_valid]
  refine ⟨_, answer_decOf s G H rw' hc, ?_⟩
  cases h : classify H (syndrome H (bodyOf rw')) with
  | valid => simp [decodeWord_of_valid h, Response.render, DecodeStatus.code, OutWord.payload]
  | corrected p => simp [decodeWord_of_corrected h, Response.render, DecodeStatus.code, OutWord.payload]
  | uncorrectable => simp [decodeWord_of_uncorrectable h, Response.render, DecodeStatus.code, OutWord.payload]

/-! ### Encoded words with errors in the body -/

/-- An error pattern on the body of an encoded word (rule R98). -/
theorem bodyOf_encodeWord_xor (G : GenMatrix) (v : SourceWord) (d : Body) :
    bodyOf (encodeWord G v ^^^ d.setWidth 11) = vmul v G ^^^ d := by
  rw [bodyOf_xor, bodyOf_encodeWord, bodyOf_setWidth]

theorem syndrome_encodeWord_xor {G : GenMatrix} (hsys : sysChk G = true) (v : SourceWord) (d : Body) :
    syndrome (pcDerive G) (bodyOf (encodeWord G v ^^^ d.setWidth 11)) = syndrome (pcDerive G) d := by
  rw [bodyOf_encodeWord_xor, syndrome_xor_of_codeword (syndrome_vmul hsys v)]

theorem payloadOf_xor (x y : Body) : payloadOf (x ^^^ y) = payloadOf x ^^^ payloadOf y := BitVec.setWidth_xor

/-- `WF_COL` of the constants is distinctness of the columns of `H` (rule R81). -/
theorem State.Inv.columnsDistinct {s : State} {G : GenMatrix} {H : CheckMatrix} (hinv : s.Inv)
    (hc : s.coder = some (.ready G H)) (hwf : wfCol s.cfg = true) : columnsDistinct H = true := by
  obtain ⟨hG, hsys, rfl⟩ := coderOf_ready (hinv.coder_built _ hc).symm
  simpa only [wfCol, hG, hsys, Bool.true_and] using hwf

/-- Distinct non-zero columns are each located by their own syndrome (rules R20 and R100). -/
theorem classify_col {H : CheckMatrix} (h : columnsDistinct H = true) (p : Fin 10) :
    classify H (col H p) = .corrected p := by
  obtain ⟨hne, hzero⟩ := (columnsDistinct_iff H).mp h
  exact classify_eq_corrected.mpr ⟨hzero p, rfl, fun q hq => hne q p (ne_of_lt hq)⟩

/-- The classifier answers the least column equal to a non-zero one (rule R100). -/
theorem classify_col_of_ne_zero {H : CheckMatrix} {p : Fin 10} (h : col H p ≠ 0#4) :
    ∃ r, classify H (col H p) = .corrected r ∧ col H r = col H p ∧ ∀ q, col H q = col H p → r ≤ q := by
  cases hclass : classify H (col H p) with
  | valid => exact absurd (classify_eq_valid.mp hclass) h
  | uncorrectable => exact absurd rfl ((classify_eq_uncorrectable.mp hclass).2 p)
  | corrected r =>
    obtain ⟨-, hcol, hleast⟩ := classify_eq_corrected.mp hclass
    exact ⟨r, rfl, hcol, fun q hq => le_of_not_gt fun hlt => hleast q hlt hq⟩

/-- Settles O42: the syndrome is the column of the error, so the index is that of the least equal column, if it is not zero;
flipping the error's own bit gives the codeword back. -/
theorem singleBodyErrorIsCorrected : Obligations.SingleBodyErrorIsCorrected := by
  intro s G H v hinv hc
  obtain ⟨hsys, hH⟩ := hinv.ready hc
  have hsyn : ∀ p, syndrome H (bodyOf (encodeWord G v ^^^ (unitBody p).setWidth 11)) = col H p := fun p => by
    rw [hH, syndrome_encodeWord_xor hsys, syndrome_unitBody]
  refine ⟨_, answer_encOf s G H v hc, fun hwf p => ?_, fun p _ hzero => ?_, fun q p _ hqp hne => ?_⟩
  · have hclass : classify H (syndrome H (bodyOf (encodeWord G v ^^^ (unitBody p).setWidth 11))) = .corrected p := by
      rw [hsyn, classify_col (hinv.columnsDistinct hc hwf)]
    refine ⟨?_, hclass⟩
    rw [answer_decOf_of_corrected hc hclass, bodyOf_encodeWord_xor, flipBit, BitVec.xor_assoc, BitVec.xor_self,
      BitVec.xor_zero, payloadOf_vmul hsys]
  · rw [answer_decOf_of_valid hc (by rw [hsyn, classify_eq_valid, hzero]), bodyOf_encodeWord_xor, payloadOf_xor,
      payloadOf_vmul hsys]
    rfl
  · obtain ⟨r, hclass, hcol, hleast⟩ := classify_col_of_ne_zero hne
    refine ⟨r, hleast q hqp, hcol, ?_⟩
    rw [answer_decOf_of_corrected hc (by rw [hsyn, hclass]), bodyOf_encodeWord_xor, flipBit, payloadOf_xor, payloadOf_xor,
      payloadOf_vmul hsys]
    rfl

/-- Settles O43: the syndrome is the XOR of two different columns, so it is not zero, and it is neither of the two columns,
since the other one is not zero. -/
theorem doubleBodyErrorIsNeverValid : Obligations.DoubleBodyErrorIsNeverValid := by
  intro s G H hinv hc hwf v a b hab
  obtain ⟨hsys, hH⟩ := hinv.ready hc
  obtain ⟨hne, hzero⟩ := (columnsDistinct_iff H).mp (hinv.columnsDistinct hc hwf)
  have hsyn : syndrome H (bodyOf (encodeWord G v ^^^ (unitBody a ^^^ unitBody b).setWidth 11)) = col H a ^^^ col H b := by
    rw [hH, syndrome_encodeWord_xor hsys, syndrome_xor, syndrome_unitBody, syndrome_unitBody]
  refine ⟨_, answer_encOf s G H v hc, ?_⟩
  cases hclass : classify H (col H a ^^^ col H b) with
  | valid => exact absurd (BitVec.xor_eq_zero_iff.mp (classify_eq_valid.mp hclass)) (hne a b hab)
  | uncorrectable =>
    exact .inr ⟨(classify_eq_uncorrectable.mp hclass).2, answer_decOf_of_uncorrectable hc (by rw [hsyn, hclass])⟩
  | corrected p =>
    obtain ⟨-, hcol, -⟩ := classify_eq_corrected.mp hclass
    refine .inl ⟨p, ?_, ?_, hcol, ?_⟩
    · rintro rfl
      exact hzero b ((BitVec.xor_right_inj _).mp (hcol.symm.trans BitVec.xor_zero.symm))
    · rintro rfl
      exact hzero a ((BitVec.xor_left_inj _).mp (hcol.symm.trans BitVec.zero_xor.symm))
    · rw [answer_decOf_of_corrected hc (by rw [hsyn, hclass]), bodyOf_encodeWord_xor, flipBit,
        ← BitVec.xor_assoc (vmul v G)]

/-! ### Counting ones and syndromes -/

/-- A count over `0, …, m-1` as the size of a finite set. -/
theorem countP_range_eq_card (f : Nat → Bool) (m : Nat) :
    (List.range m).countP f = ((Finset.range m).filter fun i => f i = true).card := by
  rw [List.countP_eq_length_filter, Finset.card_def, Finset.filter_val, Finset.range_val]
  simp [Multiset.range]

/-- The positions of the ones of a sequence. -/
def support {m : Nat} (x : BitVec m) : Finset Nat := (Finset.range m).filter fun i => x.getLsbD i = true

theorem ones_eq_card_support {m : Nat} (x : BitVec m) : ones x = (support x).card := countP_range_eq_card x.getLsbD m

theorem mem_support {m : Nat} {x : BitVec m} {i : Nat} (hi : i < m) : i ∈ support x ↔ x[i] = true := by
  simp [support, hi, BitVec.getLsbD_eq_getElem]

theorem lt_of_mem_support {m : Nat} {x : BitVec m} {i : Nat} (h : i ∈ support x) : i < m :=
  Finset.mem_range.mp (Finset.mem_filter.mp h).1

theorem eq_of_support_eq {m : Nat} {x y : BitVec m} (h : support x = support y) : x = y := by
  ext i hi
  rw [Bool.eq_iff_iff, ← mem_support hi, ← mem_support hi, h]

/-- A body with at most two ones is zero, a single error or a double one. -/
theorem eq_of_ones_le_two {d : Body} (h : ones d ≤ 2) :
    d = 0#10 ∨ (∃ a, d = unitBody a) ∨ ∃ a b, a ≠ b ∧ d = unitBody a ^^^ unitBody b := by
  rw [ones_eq_card_support] at h
  have hbit : ∀ i (hi : i < 10), d[i] = decide (i ∈ support d) := fun i hi => by
    rw [Bool.eq_iff_iff, decide_eq_true_iff, mem_support hi]
  obtain hcard | hcard | hcard : (support d).card = 0 ∨ (support d).card = 1 ∨ (support d).card = 2 := by omega
  · left
    ext i hi
    simp [hbit i hi, Finset.card_eq_zero.mp hcard]
  · obtain ⟨a, ha⟩ := Finset.card_eq_one.mp hcard
    have ha10 : a < 10 := lt_of_mem_support (x := d) (by simp [ha])
    refine .inr (.inl ⟨⟨a, ha10⟩, ?_⟩)
    ext i hi
    simp [hbit i hi, ha, unitBody]
  · obtain ⟨a, b, hab, hsup⟩ := Finset.card_eq_two.mp hcard
    have ha10 : a < 10 := lt_of_mem_support (x := d) (by simp [hsup])
    have hb10 : b < 10 := lt_of_mem_support (x := d) (by simp [hsup])
    refine .inr (.inr ⟨⟨a, ha10⟩, ⟨b, hb10⟩, by simpa using hab, ?_⟩)
    ext i hi
    have hxor : decide (i ∈ support d) = (decide (i = a) ^^ decide (i = b)) := by
      rw [hsup]
      by_cases hia : i = a
      · simp [hia, hab]
      · simp [hia]
    simpa [hbit i hi, unitBody] using hxor

/-- An error pattern that the syndrome does not see has at least three ones (rule R90 (g)). -/
theorem three_le_ones_of_syndrome_eq_zero {H : CheckMatrix} (h : columnsDistinct H = true) {d : Body} (hd : d ≠ 0#10)
    (hsyn : syndrome H d = 0#4) : 3 ≤ ones d := by
  obtain ⟨hne, hzero⟩ := (columnsDistinct_iff H).mp h
  by_contra hlt
  obtain rfl | ⟨a, rfl⟩ | ⟨a, b, hab, rfl⟩ := eq_of_ones_le_two (d := d) (by omega)
  · exact hd rfl
  · exact hzero a (by rw [← syndrome_unitBody, hsyn])
  · rw [syndrome_xor, syndrome_unitBody, syndrome_unitBody, BitVec.xor_eq_zero_iff] at hsyn
    exact hne a b hab hsyn

/-- Settles O34: the difference of two codewords is an error pattern of syndrome zero, and the parity bit makes its number
of ones even. -/
theorem minimumDistanceOfTheCode : Obligations.MinimumDistanceOfTheCode := by
  intro s G H hinv hc hdist v v' hne
  obtain ⟨hsys, hH⟩ := hinv.ready hc
  have hthree : 3 ≤ ones (vmul (v ^^^ v') G) := by
    refine three_le_ones_of_syndrome_eq_zero hdist (fun hzero => hne ?_) (by rw [hH, syndrome_vmul hsys])
    rw [vmul_xor, BitVec.xor_eq_zero_iff] at hzero
    exact vmul_injective hsys hzero
  refine ⟨vmul_xor v v' G ▸ hthree, _, _, answer_encOf s G H v hc, answer_encOf s G H v' hc, ?_⟩
  have heven : ones (encodeWord G (v ^^^ v')) % 2 = 0 := ones_cons_xorRed _
  have hcons : ones (encodeWord G (v ^^^ v')) = ones (vmul (v ^^^ v') G) + (xorRed (vmul (v ^^^ v') G)).toNat :=
    ones_cons _ _
  rw [← encodeWord_xor]
  omega

/-- The syndromes that the classifier matches: zero and the columns (rules R20 and R99), as numbers. -/
def matchedSyndromes (H : CheckMatrix) : Finset Nat := insert 0 (Finset.univ.image fun p => (col H p).toNat)

theorem card_matchedSyndromes {H : CheckMatrix} (h : columnsDistinct H = true) : (matchedSyndromes H).card = 11 := by
  obtain ⟨hne, hzero⟩ := (columnsDistinct_iff H).mp h
  have hinj : Function.Injective fun p => (col H p).toNat := fun p q hpq => by
    by_contra hpq'
    exact hne p q hpq' (BitVec.eq_of_toNat_eq hpq)
  have hnot : 0 ∉ Finset.univ.image fun p => (col H p).toNat := by
    intro hmem
    obtain ⟨p, -, hp⟩ := Finset.mem_image.mp hmem
    exact hzero p (BitVec.eq_of_toNat_eq hp)
  rw [matchedSyndromes, Finset.card_insert_of_notMem hnot, Finset.card_image_of_injective _ hinj, Finset.card_fin]

theorem matchedSyndromes_subset (H : CheckMatrix) : matchedSyndromes H ⊆ Finset.range 16 := by
  intro n hn
  rw [Finset.mem_range]
  obtain rfl | hn := Finset.mem_insert.mp hn
  · decide
  · obtain ⟨p, -, rfl⟩ := Finset.mem_image.mp hn
    exact (col H p).isLt

/-- A syndrome is UNCORRECTABLE when it is not matched (rule R99). -/
theorem classify_ofNat_eq_uncorrectable {H : CheckMatrix} {n : Nat} (hn : n < 16) :
    classify H (BitVec.ofNat 4 n) = .uncorrectable ↔ n ∉ matchedSyndromes H := by
  have hnat : (BitVec.ofNat 4 n).toNat = n := Nat.mod_eq_of_lt hn
  rw [classify_eq_uncorrectable, matchedSyndromes, Finset.mem_insert, not_or, Finset.mem_image, Ne, ← BitVec.toNat_inj, hnat]
  simp [← BitVec.toNat_inj, Nat.mod_eq_of_lt hn]

/-- Settles O44: eleven of the sixteen syndromes are matched, zero and ten different columns. -/
theorem exactlyFiveSyndromesAreUncorrectable : Obligations.ExactlyFiveSyndromesAreUncorrectable := by
  intro H h
  refine ⟨classify_col h, ?_⟩
  have hset : ((Finset.range 16).filter fun n => decide (classify H (BitVec.ofNat 4 n) = .uncorrectable) = true) =
      Finset.range 16 \ matchedSyndromes H := by
    ext n
    rw [Finset.mem_filter, Finset.mem_sdiff, decide_eq_true_iff]
    exact and_congr_right fun hn => classify_ofNat_eq_uncorrectable (Finset.mem_range.mp hn)
  rw [countP_range_eq_card, hset, Finset.card_sdiff_of_subset (matchedSyndromes_subset H), card_matchedSyndromes h,
    Finset.card_range]

end Sys2Proof.Machine
end

section
/-! PROOFS. Runs (rules R35, R36, R40, R143, R146): one step of a run, a run after a reset word by word, the run from before
the first reset, and the host's run; and the constants REF of rule R82. -/

namespace Sys2Proof.Machine

/-! ### One word of a run -/

theorem stepOut_eq_some {s : State} {w : InWord} {o : OutWord} :
    stepOut s w = some o ↔ ∃ t, step (s.present [w]) = .next t ∧ t.out = some o := by
  unfold stepOut
  cases step (s.present [w]) <;> simp

/-- A run over a first word and the rest is its step and the run from there (rule R146). -/
theorem runWords_cons_eq_some {s u : State} {w : InWord} {ws : List InWord} {os : List OutWord} :
    runWords s (w :: ws) = some (u, os) ↔
      ∃ t o os', step (s.present [w]) = .next t ∧ t.out = some o ∧ runWords t ws = some (u, os') ∧ os = o :: os' := by
  rw [runWords]
  cases step (s.present [w]) with
  | fault r => simp
  | refused r => simp
  | next t =>
    cases hout : t.out with
    | none => simp [hout]
    | some o =>
      cases hrun : runWords t ws with
      | none => simp [hout, hrun]
      | some p => simp [hout, hrun, Prod.ext_iff, eq_comm]

/-- Presenting words changes nothing that the invariant speaks of. -/
theorem State.Inv.present {s : State} (hinv : s.Inv) (ws : List InWord) : (s.present ws).Inv :=
  ⟨hinv.conv_idle, hinv.coder_built, hinv.out_listed⟩

/-- After a reset a word presented alone gives a step that keeps the invariant, the coder and the constants (rule R40). -/
theorem State.Inv.step_present {s : State} {c : Coder} (hinv : s.Inv) (hc : s.coder = some c) (w : InWord) :
    ∃ t o, step (s.present [w]) = .next t ∧ t.out = some o ∧ t.Inv ∧ t.coder = some c ∧ t.cfg = s.cfg := by
  obtain ⟨t, ht⟩ := stepIsTotalAfterReset.1 (s.present [w]) w [] c rfl hc
  obtain ⟨o, hout, -⟩ := step_out_listed ht
  obtain ⟨hcoder, hcfg⟩ := (hinv.present [w]).step_coder hc ht
  exact ⟨t, o, ht, hout, everyStepKeepsInvariant _ t (hinv.present [w]) ht, hcoder, hcfg⟩

/-- The answer to a word depends on the constants and `(phase, G, H)` only (rule R40). -/
theorem stepOut_congr {s s' : State} (hcfg : s.cfg = s'.cfg) (hcoder : s.coder = s'.coder) : stepOut s = stepOut s' := by
  have himp : ∀ {s s' : State}, s.cfg = s'.cfg → s.coder = s'.coder → ∀ w o, stepOut s w = some o → stepOut s' w = some o := by
    intro s s' hcfg hcoder w o h
    obtain ⟨t, ht, hout⟩ := stepOut_eq_some.mp h
    obtain ⟨t', ht', -, hout'⟩ :=
      outputDependsOnStateAndInputOnly (s.present [w]) (s'.present [w]) t w [] [] hcfg hcoder rfl rfl ht
    exact stepOut_eq_some.mpr ⟨t', ht', hout'.trans hout⟩
  funext w
  ext o
  exact ⟨himp hcfg hcoder w o, himp hcfg.symm hcoder.symm w o⟩

/-! ### Runs -/

/-- A run from a block that has been reset answers each word as alone (rules R35, R36 and R143). -/
theorem State.Inv.runWords {s : State} {c : Coder} (hinv : s.Inv) (hc : s.coder = some c) (ws : List InWord) :
    ∃ t os, Machine.runWords s ws = some (t, os) ∧ os.map some = ws.map (stepOut s) ∧ t.coder = some c ∧ t.cfg = s.cfg := by
  induction ws generalizing s with
  | nil => exact ⟨s, [], rfl, rfl, hc, rfl⟩
  | cons w ws ih =>
    obtain ⟨t, o, ht, hout, hinv', hcoder, hcfg⟩ := hinv.step_present hc w
    obtain ⟨u, os, hrun, hmap, hcoder', hcfg'⟩ := ih hinv' hcoder
    refine ⟨u, o :: os, runWords_cons_eq_some.mpr ⟨t, o, os, ht, hout, hrun, rfl⟩, ?_, hcoder', hcfg'.trans hcfg⟩
    have hfirst : stepOut s w = some o := stepOut_eq_some.mpr ⟨t, ht, hout⟩
    rw [List.map_cons, List.map_cons, hmap, hfirst, stepOut_congr hcfg (hcoder.trans hc.symm)]

/-- Settles O53: by induction over the words, the answer to a word being a function of what the run keeps. -/
theorem runOutputsAreWordByWord : Obligations.RunOutputsAreWordByWord := by
  intro s c ws hinv hc
  rw [hc]
  exact hinv.runWords hc ws

/-- A run from before the first reset whose first word is a reset: the reset's own answer, then the answers of the block it
leaves (rules R24 and R146). -/
theorem runWords_preReset (cfg : Config) {w : InWord} (ws : List InWord) (hrst : w[21] = true) :
    ∃ s t os, s.Inv ∧ s.coder = some (constructCoder cfg) ∧
      runWords (State.preReset cfg) (w :: ws) = some (t, Response.silent.render (constructCoder cfg).phase :: os) ∧
      os.map some = ws.map (stepOut s) ∧ t.coder = some (constructCoder cfg) := by
  have hstep := step_of_rst ((State.preReset cfg).present [w]) w [] rfl hrst
  have hinv := everyStepKeepsInvariant _ _ ((resetMeetsInvariant.2 cfg).present [w]) hstep
  obtain ⟨t, os, hrun, hmap, hcoder, -⟩ := hinv.runWords rfl ws
  exact ⟨_, t, os, hinv, rfl, runWords_cons_eq_some.mpr ⟨_, _, os, hstep, rfl, hrun, rfl⟩, hmap, hcoder⟩

/-- An output word of a run is the answer to one of its words. -/
theorem exists_stepOut_of_mem {s : State} {ws : List InWord} {os : List OutWord} (hmap : os.map some = ws.map (stepOut s))
    {o : OutWord} (ho : o ∈ os) : ∃ u ∈ ws, stepOut s u = some o := by
  have hmem : some o ∈ ws.map (stepOut s) := hmap ▸ List.mem_map_of_mem ho
  exact List.mem_map.mp hmem

/-- Settles O54: the reset's answer is listed, and so is every answer of the block it leaves. -/
theorem runFromFirstResetAnswersEveryWord : Obligations.RunFromFirstResetAnswersEveryWord := by
  intro cfg w ws hrst
  obtain ⟨s, t, os, -, -, hrun, hmap, hcoder⟩ := runWords_preReset cfg ws hrst
  have hlength : os.length = ws.length := by simpa using congrArg List.length hmap
  refine ⟨t, _, hrun, by rw [List.length_cons, hlength], hcoder, List.forall_mem_cons.mpr ⟨listed_silent _, fun o ho => ?_⟩⟩
  obtain ⟨u, -, hu⟩ := exists_stepOut_of_mem hmap ho
  obtain ⟨t', ht', hout⟩ := stepOut_eq_some.mp hu
  obtain ⟨o', hout', hlisted⟩ := step_out_listed ht'
  rwa [Option.some.inj (hout.symm.trans hout')]

/-! ### Runs in which nothing goes wrong -/

/-- Only an error response has an error code (rules R46 and R116). -/
theorem err_render (f : Bool) {r : Response} (h : ∀ e, r ≠ .rejected e) : OutWord.err (r.render f) = 0#2 := by
  rcases r with _ | e | ⟨_ | p, st⟩ | e
  · simp [Response.render]
  · simp [Response.render]
  · simp [Response.render]
  · simp [Response.render]
  · exact absurd rfl (h e)

/-- In READY a call of the right length is answered from the matrices (rules R85, R95 and R120). -/
theorem checkedCall_ready_of_len_eq (G : GenMatrix) (H : CheckMatrix) {n : Nat} {seq : Operand}
    (f : GenMatrix → CheckMatrix → Response) (h : seq.len = n) : checkedCall (.ready G H) n seq f = f G H := if_pos h

theorem encodeCall_ne_rejected (G : GenMatrix) (H : CheckMatrix) (d : BitVec 15) (e : CallError) :
    encodeCall (.ready G H) (operand 6#4 d) ≠ .rejected e := by
  rw [encodeCall, checkedCall_ready_of_len_eq G H (n := 6) (seq := operand 6#4 d) _ rfl]
  exact Response.noConfusion

theorem decodeCall_ne_rejected (G : GenMatrix) (H : CheckMatrix) (d : BitVec 15) (e : CallError) :
    decodeCall (.ready G H) (operand 11#4 d) ≠ .rejected e := by
  rw [decodeCall, checkedCall_ready_of_len_eq G H (n := 11) (seq := operand 11#4 d) _ rfl]
  exact Response.noConfusion

/-- In READY the answer to a word whose call, if it is one, has the right length shows no error (rule R117). -/
theorem stepOut_clean {s : State} {G : GenMatrix} {H : CheckMatrix} {u : InWord} {o : OutWord} (hinv : s.Inv)
    (hc : s.coder = some (.ready G H)) (henc : ∀ len data, decodeCmd u = .encode len data → len = 6#4)
    (hdec : ∀ len data, decodeCmd u = .decode len data → len = 11#4) (h : stepOut s u = some o) :
    OutWord.fault o = false ∧ OutWord.err o = 0#2 := by
  obtain ⟨t, ht, hout⟩ := stepOut_eq_some.mp h
  constructor
  · obtain ⟨o', hout', -, hfault⟩ := everyOutputWordIsListed _ t ht
    obtain rfl : o' = o := Option.some.inj (hout'.symm.trans hout)
    rw [← Bool.not_eq_true, hfault, ((hinv.present [u]).step_coder hc ht).1]
    simp
  · rw [step_of_inputs _ u [] rfl] at ht
    rcases exec_next_cases ht with ⟨-, rfl⟩ | ⟨c, -, -, rfl⟩ | ⟨c, len, d, hc', hu, rfl⟩ | ⟨c, len, d, hc', hu, rfl⟩ |
      ⟨M, a, b, -, hu, -⟩
    · rw [← Option.some.inj hout]
      exact err_render _ (fun e => Response.noConfusion)
    · rw [← Option.some.inj hout]
      exact err_render _ (fun e => Response.noConfusion)
    · obtain rfl := Option.some.inj (hc'.symm.trans hc)
      obtain rfl := henc len d hu
      rw [← Option.some.inj hout]
      exact err_render _ (encodeCall_ne_rejected G H d)
    · obtain rfl := Option.some.inj (hc'.symm.trans hc)
      obtain rfl := hdec len d hu
      rw [← Option.some.inj hout]
      exact err_render _ (decodeCall_ne_rejected G H d)
    · exact absurd hu (decodeCmd_ne_rowxor u a b)

/-- Settles O55: with `WF_SYS` the reset ends in READY, where every later answer is clean. -/
theorem wellUsedRunIsClean : Obligations.WellUsedRunIsClean := by
  intro cfg w ws hrst hwf hws
  obtain ⟨G, -, -, hready⟩ := constructCoder_of_wfSys hwf
  obtain ⟨s, t, os, hinv, hc, hrun, hmap, -⟩ := runWords_preReset cfg ws hrst
  refine ⟨t, _, hrun, List.forall_mem_cons.mpr ⟨?_, fun o ho => ?_⟩⟩
  · rw [hready]
    exact ⟨fault_render _ _, err_render _ (fun e => Response.noConfusion)⟩
  · obtain ⟨u, hu, hout⟩ := exists_stepOut_of_mem hmap ho
    exact stepOut_clean hinv (hc.trans (congrArg some hready)) (hws u hu).1 (hws u hu).2 hout

/-! ### The host's run -/

/-- A step on a word presented alone is the step on it at the head of a queue, but for what stays waiting (rule R40). -/
theorem step_of_present {s t : State} {w : InWord} (rest : List InWord) (h : step (s.present [w]) = .next t) :
    step { s with inputs := w :: rest } = .next { t with inputs := rest } := by
  rw [step_of_inputs _ w [] rfl] at h
  rw [step_of_inputs _ w rest rfl]
  exact exec_with_inputs _ { s with inputs := [] } t rest h

/-- Settles O56: by induction over the words, each taken from the head of the queue. -/
theorem coreRunFollowsTheInputWords : Obligations.CoreRunFollowsTheInputWords := by
  intro s t ws rest os h
  induction ws generalizing s os with
  | nil => cases h; rfl
  | cons w ws ih =>
    obtain ⟨s', o, os', hstep, -, hrun, -⟩ := runWords_cons_eq_some.mp h
    rw [List.length_cons, List.cons_append, core_run_succ _ _ _ (step_of_present (ws ++ rest) hstep)]
    exact ih s' os' hrun

/-! ### The constants REF -/

/-- The coder that REF gives (rule R82). -/
theorem constructCoder_refConfig : constructCoder refConfig = .ready gRef hRef := by decide

/-- Settles O57: the tables of rule R82 are closed terms of the model; CONSTRUCT from any state builds the coder of REF. -/
theorem referenceInstanceIsReady : Obligations.ReferenceInstanceIsReady := by
  refine ⟨by decide, by decide, by decide, by decide, by decide, by decide, fun s hs => ?_, by decide, by decide, by decide⟩
  exact exec_construct_ready s (by rw [hs, constructCoder_refConfig])

end Sys2Proof.Machine
end
